-- ==== Sys2Proof/Word.lean ====
section
/-! DEFINITION. The word types of the machine. Every value is unsigned (00_scope.md R9, 42_alu.md R100). -/

namespace Sys2Proof

/-- An 8-bit value: a general register, a timer, a memory cell (00_scope.md R5). -/
abbrev Byte := BitVec 8

/-- A 16-bit value: `I`, `pc`, a stack slot, an opcode (00_scope.md R5). -/
abbrev Word := BitVec 16

/-- The number of a general register, V0..VF (10_state.md R21). -/
abbrev Reg := Fin 16

/-- The number of a key of the key latch, 0x0..0xF (10_state.md R29). -/
abbrev Key := Fin 16

/-- VF, register 15, which some instructions also write as a flag (10_state.md R22). -/
abbrev vf : Reg := 15

end Sys2Proof
end

