-- ==== Sys2Proof/Config.lean ====
section
/-! DEFINITION. What is fixed for the machine: its sizes (00_scope.md R5), and the two free values of 00_scope.md R6 that
are inputs of an execution (`RAND`, `KEY_SELECT`). The third open parameter, `FONT`, is the field `font` of State. -/

namespace Sys2Proof.Config

/-- `MEM_SIZE`: bytes of memory (00_scope.md R5). -/
abbrev memSize : Nat := 4096

/-- The highest address, 0xFFF (20_memory.md R40). -/
abbrev maxAddr : Nat := 0xFFF

/-- `PROG_BASE`: where `load` puts a program and where `pc` starts (00_scope.md R5). -/
abbrev progBase : Nat := 0x200

/-- `ROM_MAX`: the longest byte sequence `load` accepts (00_scope.md R5, 70_reset_and_hazards.md R183). -/
abbrev romMax : Nat := 3584

/-- FREE VALUE `RAND` (00_scope.md R6, 42_alu.md R112): the byte the n-th draw yields. It has no body: any byte, under no
law (the spec's decision D16; log entry 2). -/
opaque randByte : Nat → Byte

/-- FREE VALUE behind `KEY_SELECT` (00_scope.md R6, 45_keys_timers.md R143): a number that picks one of several pressed
keys, taken modulo how many there are. It has no body, so every choice function is one of its values (the spec's decision
D19; log entry 3). -/
opaque keyChoice : List Key → Nat

end Sys2Proof.Config
end

