-- ==== Sys2Proof/Machine/Font.lean ====
section
/-! DEFINITION. The default glyph table, the value State.reset gives the parameter `FONT` (20_memory.md R43). PRESUMED: the
spec marks the 80 bytes as general knowledge of the CHIP-8 family, not in its source (log entry 1). -/

namespace Sys2Proof.Machine

/-- Glyphs 0 to 7, five bytes each, top row first (20_memory.md R43). -/
def glyphsLow : List Byte :=
  [0xF0, 0x90, 0x90, 0x90, 0xF0] ++ [0x20, 0x60, 0x20, 0x20, 0x70] ++
  [0xF0, 0x10, 0xF0, 0x80, 0xF0] ++ [0xF0, 0x10, 0xF0, 0x10, 0xF0] ++
  [0x90, 0x90, 0xF0, 0x10, 0x10] ++ [0xF0, 0x80, 0xF0, 0x10, 0xF0] ++
  [0xF0, 0x80, 0xF0, 0x90, 0xF0] ++ [0xF0, 0x10, 0x20, 0x40, 0x40]

/-- Glyphs 8 to F (20_memory.md R43). -/
def glyphsHigh : List Byte :=
  [0xF0, 0x90, 0xF0, 0x90, 0xF0] ++ [0xF0, 0x90, 0xF0, 0x10, 0xF0] ++
  [0xF0, 0x90, 0xF0, 0x90, 0x90] ++ [0xE0, 0x90, 0xE0, 0x90, 0xE0] ++
  [0xF0, 0x80, 0x80, 0x80, 0xF0] ++ [0xE0, 0x90, 0x90, 0x90, 0xE0] ++
  [0xF0, 0x80, 0xF0, 0x80, 0xF0] ++ [0xF0, 0x80, 0xF0, 0x80, 0x80]

/-- The default `FONT` (20_memory.md R43). PRESUMED, log entry 1. -/
def defaultFont : Vector Byte 80 := ⟨⟨glyphsLow ++ glyphsHigh⟩, rfl⟩

end Sys2Proof.Machine
end

