-- ==== Sys2Proof/Machine/State.lean ====
section
/-! DEFINITION. The state of the machine as plain data: the eleven elements of 10_state.md R20, and after them the model's
own fields for the parameter `FONT`, the counter of `RAND` draws, and the report a step returns. -/

namespace Sys2Proof.Machine

/-- Memory: the cells whose byte differs from what an unlisted address reads as, by rising address. -/
abbrev Memory := List Host.Cell

/-- The framebuffer: 32 rows of 64 one-bit pixels, row-major (44_display.md R130). -/
abbrev Framebuffer := Vector (Vector Bool 64) 32

/-- A reported condition with its information (60_exceptions.md R150). -/
inductive Report where
  /-- The fetched word matches no row of the opcode map (60_exceptions.md R151). -/
  | unknownOpcode (pc opcode : Word)
  /-- 2NNN with `SP = 16` (60_exceptions.md R152). -/
  | stackOverflow (pc : Word)
  /-- 00EE with `SP = 0` (60_exceptions.md R153). -/
  | stackUnderflow (pc : Word)
  /-- An access above 0xFFF, with its lowest address out of range (60_exceptions.md R154). -/
  | memoryBounds (addr : Nat)
  /-- EX9E or EXA1 with `V[X] > 15` (60_exceptions.md R155). -/
  | keyIndexRange (pc : Word) (value : Byte)
  /-- `load` of more than 3584 bytes (60_exceptions.md R156). -/
  | loadOverflow (length : Nat)
  /-- `setKey` with an index outside 0..15 (60_exceptions.md R157). -/
  | keyIndexError (index : Int)
deriving DecidableEq, Repr

/-- Faults of a step: none. No rule of the spec stops the machine: a reported condition is a value a step returns, and the
machine goes on (40_step_cycle.md R88, 60_exceptions.md R159). Safe: nothing raises a fault. Log entry 5. -/
inductive Fault where
deriving DecidableEq, Repr

/-- Refusals of a step. -/
inductive Refusal where
  /-- Raised by `exec` alone, for an instruction that has no meaning yet; safe. No arm of `exec` raises it now. -/
  | notModelled (mnemonic : String)
deriving DecidableEq, Repr

/-- The state. Reset values: 10_state.md R35. -/
structure State where
  /-- `MEM`: 4096 bytes (10_state.md R20, R32). -/
  mem : Memory
  /-- `V[0..15]`: the general registers (10_state.md R21). -/
  v : Vector Byte 16
  /-- `I`: the index register (10_state.md R23). -/
  i : Word
  /-- `pc`: the address of the next instruction (10_state.md R24). -/
  pc : Word
  /-- `STACK[0..15]`: the call stack (10_state.md R25). -/
  stack : Vector Word 16
  /-- `SP`: how many return addresses the stack holds, 0..16 (10_state.md R26). -/
  sp : Fin 17
  /-- `DT`: the delay timer (10_state.md R27). -/
  dt : Byte
  /-- `ST`: the sound timer (10_state.md R27). -/
  st : Byte
  /-- `SOUND_ACTIVE` (10_state.md R28). -/
  soundActive : Bool
  /-- `KEY[0..15]`: the key latch, true is pressed (10_state.md R29). -/
  keys : Vector Bool 16
  /-- `FB`: the framebuffer (10_state.md R30). -/
  fb : Framebuffer
  /-- `DIRTY` (10_state.md R31). -/
  dirty : Bool
  /-- MODEL: the parameter `FONT`, a constant of the hardware (00_scope.md R6, 10_state.md R34). Log entry 1. -/
  font : Vector Byte 80
  /-- MODEL: how many `RAND` bytes have been drawn (42_alu.md R112). Log entry 2. -/
  draws : Nat
  /-- MODEL: what the last `step()` returned (40_step_cycle.md R87). Log entry 4. -/
  report : Option Report
  /-- MODEL: some step since the last reset reported a condition (60_exceptions.md R172). Log entry 4. -/
  reported : Bool
deriving DecidableEq, Repr

/-- The state right after reset (10_state.md R35, 70_reset_and_hazards.md R180), which is also the state at construction
(R181). Memory lists nothing: an unlisted address reads as its reset contents. `font` has the spec's default table (log
entry 1); `draws`, `report` and `reported` start empty (log entries 2, 4). -/
def State.reset : State where
  mem := []
  v := Vector.replicate 16 0
  i := 0
  pc := 0x200
  stack := Vector.replicate 16 0
  sp := 0
  dt := 0
  st := 0
  soundActive := false
  keys := Vector.replicate 16 false
  fb := Vector.replicate 32 (Vector.replicate 64 false)
  dirty := true
  font := defaultFont
  draws := 0
  report := none
  reported := false

end Sys2Proof.Machine
end

