-- ==== Sys2Proof/Machine/Operands.lean ====
section
/-! DEFINITION. The operand forms: registers named by a field, the implicit registers, immediates, and the values computed
from them (30_encoding.md R63). -/

namespace Sys2Proof.Machine

/-- `V[i]` (00_scope.md R10). -/
def State.getV (s : State) (r : Reg) : Byte := s.v[r]

/-- `V[i] <- v` (00_scope.md R10). No register is hard-wired (10_state.md R21). -/
def State.setV (s : State) (r : Reg) (b : Byte) : State := { s with v := s.v.set r b }

/-- `I <- v` (00_scope.md R10). -/
def State.setI (s : State) (w : Word) : State := { s with i := w }

/-- `DT <- v` (45_keys_timers.md R144). -/
def State.setDt (s : State) (b : Byte) : State := { s with dt := b }

/-- `ST <- v` (45_keys_timers.md R145). -/
def State.setSt (s : State) (b : Byte) : State := { s with st := b }

/-- An immediate address, zero-extended: `zext_16(NNN)` (30_encoding.md R63). -/
def zextAddr (nnn : BitVec 12) : Word := nnn.setWidth 16

/-- A register's byte in 16-bit arithmetic, zero-extended (00_scope.md R9). -/
def zextByte (b : Byte) : Word := b.setWidth 16

/-- BNNN's target `NNN + V[0]`, not masked to 12 bits (41_flow.md R97). -/
def State.indexedTarget (s : State) (nnn : BitVec 12) : Word := zextAddr nnn + zextByte (s.getV 0)

/-- `I + V[X]` modulo 65536 (43_index_memory.md R121). -/
def State.indexPlus (s : State) (x : Reg) : Word := s.i + zextByte (s.getV x)

/-- `I + X + 1` modulo 65536, the index after a register block (43_index_memory.md R124, R125). -/
def State.indexPast (s : State) (x : Reg) : Word := s.i + BitVec.ofNat 16 (x.val + 1)

/-- The glyph address `V[X] * 5`, exact (43_index_memory.md R122). -/
def glyphAddress (b : Byte) : Word := BitVec.ofNat 16 (b.toNat * 5)

/-- Hundreds, tens and ones of a byte, by truncating division (43_index_memory.md R123). -/
def bcdDigits (b : Byte) : List Byte :=
  [BitVec.ofNat 8 (b.toNat / 100), BitVec.ofNat 8 (b.toNat / 10 % 10), BitVec.ofNat 8 (b.toNat % 10)]

/-- The registers `V[0]..V[X]`, in order (43_index_memory.md R124). -/
def State.firstRegs (s : State) (x : Reg) : List Byte := s.v.toList.take (x.val + 1)

/-- The register file with registers `k`, `k + 1`, ... loaded from a list (43_index_memory.md R125). -/
def loadRegs : Nat → List Byte → Vector Byte 16 → Vector Byte 16
  | _, [], v => v
  | k, b :: bs, v => loadRegs (k + 1) bs (if h : k < 16 then v.set k b h else v)

/-- `V[0], V[1], ...` loaded from a list, ascending (43_index_memory.md R125). -/
def State.setFirstRegs (s : State) (bs : List Byte) : State := { s with v := loadRegs 0 bs s.v }

/-- The key latch at the key numbered by `V[X]`, which is no key above 15 (45_keys_timers.md R140, R141; the spec's decision
D18). -/
def State.keyAt (s : State) (x : Reg) : Except Report Bool :=
  if h : (s.getV x).toNat < 16 then .ok s.keys[(s.getV x).toNat] else .error (.keyIndexRange s.pc (s.getV x))

end Sys2Proof.Machine
end

