-- ==== Sys2Proof/Machine/Flags.lean ====
section
/-! DEFINITION. The values the seven flag-writing instructions put into VF (10_state.md R22), and the write itself. -/

namespace Sys2Proof.Machine

/-- A flag as the byte VF holds: 1 or 0 (10_state.md R22). -/
def flagByte (c : Bool) : Byte := if c then 1 else 0

/-- 8XY4: carry out, the true sum exceeds 255 (42_alu.md R107). -/
def carryFlag (x y : Byte) : Bool := decide (x.toNat + y.toNat > 255)

/-- 8XY5 and 8XY7: no borrow in `x - y` (42_alu.md R108, R110). -/
def noBorrowFlag (x y : Byte) : Bool := decide (x.toNat ≥ y.toNat)

/-- 8XY6: the bit shifted out to the right (42_alu.md R109). -/
def lsbFlag (x : Byte) : Bool := x.getLsbD 0

/-- 8XYE: the bit shifted out to the left (42_alu.md R111). -/
def msbFlag (x : Byte) : Bool := x.getLsbD 7

/-- FX1E: the true sum of the index and the byte exceeds 0xFFF (43_index_memory.md R121). -/
def rangeFlag (i : Word) (x : Byte) : Bool := decide (i.toNat + x.toNat > 0xFFF)

/-- Writing the flag: VF, last of the instruction's registers (40_step_cycle.md R85; the spec's decision D13). -/
def State.setFlag (s : State) (c : Bool) : State := s.setV vf (flagByte c)

end Sys2Proof.Machine
end

