-- ==== Sys2Proof/Syntax.lean ====
section
/-! DEFINITION. The 34 instruction forms of the opcode map (30_encoding.md R65, spec/opcode_table.json), one constructor a
row. An operand has exactly the width of its field (30_encoding.md R61, R63), so no operand can be out of range. -/

namespace Sys2Proof

/-- An instruction, in the order of 30_encoding.md R65. -/
inductive Instr where
  /-- 00E0 `CLS`: 44_display.md R131. -/
  | cls
  /-- 00EE `RET`: 41_flow.md R90. -/
  | ret
  /-- 1NNN `JP NNN`: 41_flow.md R91. -/
  | jp (nnn : BitVec 12)
  /-- 2NNN `CALL NNN`: 41_flow.md R92. -/
  | call (nnn : BitVec 12)
  /-- 3XNN `SE VX, NN`: 41_flow.md R93. -/
  | seImm (x : Reg) (nn : Byte)
  /-- 4XNN `SNE VX, NN`: 41_flow.md R94. -/
  | sneImm (x : Reg) (nn : Byte)
  /-- 5XY0 `SE VX, VY`: 41_flow.md R95. -/
  | seReg (x y : Reg)
  /-- 6XNN `LD VX, NN`: 42_alu.md R101. -/
  | ldImm (x : Reg) (nn : Byte)
  /-- 7XNN `ADD VX, NN`: 42_alu.md R102. -/
  | addImm (x : Reg) (nn : Byte)
  /-- 8XY0 `LD VX, VY`: 42_alu.md R103. -/
  | ldReg (x y : Reg)
  /-- 8XY1 `OR VX, VY`: 42_alu.md R104. -/
  | or (x y : Reg)
  /-- 8XY2 `AND VX, VY`: 42_alu.md R105. -/
  | and (x y : Reg)
  /-- 8XY3 `XOR VX, VY`: 42_alu.md R106. -/
  | xor (x y : Reg)
  /-- 8XY4 `ADD VX, VY`: 42_alu.md R107. -/
  | addReg (x y : Reg)
  /-- 8XY5 `SUB VX, VY`: 42_alu.md R108. -/
  | sub (x y : Reg)
  /-- 8XY6 `SHR VX`: 42_alu.md R109; the Y field is encoded and has no effect. -/
  | shr (x y : Reg)
  /-- 8XY7 `SUBN VX, VY`: 42_alu.md R110. -/
  | subn (x y : Reg)
  /-- 8XYE `SHL VX`: 42_alu.md R111; the Y field is encoded and has no effect. -/
  | shl (x y : Reg)
  /-- 9XY0 `SNE VX, VY`: 41_flow.md R96. -/
  | sneReg (x y : Reg)
  /-- ANNN `LD I, NNN`: 43_index_memory.md R120. -/
  | ldI (nnn : BitVec 12)
  /-- BNNN `JP V0, NNN`: 41_flow.md R97. -/
  | jpV0 (nnn : BitVec 12)
  /-- CXNN `RND VX, NN`: 42_alu.md R112. -/
  | rnd (x : Reg) (nn : Byte)
  /-- DXYN `DRW VX, VY, N`: 44_display.md R132. -/
  | drw (x y : Reg) (n : BitVec 4)
  /-- EX9E `SKP VX`: 45_keys_timers.md R140. -/
  | skp (x : Reg)
  /-- EXA1 `SKNP VX`: 45_keys_timers.md R141. -/
  | sknp (x : Reg)
  /-- FX07 `LD VX, DT`: 45_keys_timers.md R142. -/
  | ldVxDt (x : Reg)
  /-- FX0A `LD VX, K`: 45_keys_timers.md R143. -/
  | ldVxK (x : Reg)
  /-- FX15 `LD DT, VX`: 45_keys_timers.md R144. -/
  | ldDtVx (x : Reg)
  /-- FX18 `LD ST, VX`: 45_keys_timers.md R145. -/
  | ldStVx (x : Reg)
  /-- FX1E `ADD I, VX`: 43_index_memory.md R121. -/
  | addI (x : Reg)
  /-- FX29 `LD F, VX`: 43_index_memory.md R122. -/
  | ldF (x : Reg)
  /-- FX33 `LD B, VX`: 43_index_memory.md R123. -/
  | ldB (x : Reg)
  /-- FX55 `LD [I], VX`: 43_index_memory.md R124. -/
  | ldMemVx (x : Reg)
  /-- FX65 `LD VX, [I]`: 43_index_memory.md R125. -/
  | ldVxMem (x : Reg)
deriving DecidableEq, Repr

end Sys2Proof
end

