-- ==== Sys2Proof/Decode.lean ====
section
/-! DEFINITION. The decoder, total on any word and on any bytes, and after it the encoder, written from the same encoding
tables of 30_encoding.md (fields R61, formats R62, opcode map R65). Every fixed digit of a pattern is compared (R64; the
spec's decision D12, 90_conflicts.md C5). -/

namespace Sys2Proof

/-- Why bytes give no instruction. -/
inductive DecodeError where
  /-- The word matches no row of the opcode map (30_encoding.md R66). -/
  | unknownOpcode (opcode : Word)
  /-- Fewer than the two bytes of an instruction (30_encoding.md R60). -/
  | truncated
deriving DecidableEq, Repr

/-- `OP`, bits 15..12: the family (30_encoding.md R61). -/
def opField (w : Word) : BitVec 4 := w.extractLsb' 12 4

/-- `X`, bits 11..8: the number of VX (30_encoding.md R61). -/
def xField (w : Word) : Reg := (w.extractLsb' 8 4).toFin

/-- `Y`, bits 7..4: the number of VY (30_encoding.md R61). -/
def yField (w : Word) : Reg := (w.extractLsb' 4 4).toFin

/-- `N`, bits 3..0 (30_encoding.md R61). -/
def nField (w : Word) : BitVec 4 := w.extractLsb' 0 4

/-- `NN`, bits 7..0 (30_encoding.md R61). -/
def nnField (w : Word) : Byte := w.extractLsb' 0 8

/-- `NNN`, bits 11..0 (30_encoding.md R61). -/
def nnnField (w : Word) : BitVec 12 := w.extractLsb' 0 12

/-- Family 8 by its low nibble (30_encoding.md R64; the pairing of R65 note a). -/
def decodeAlu (w : Word) : Option Instr :=
  match (nField w).toNat with
  | 0x0 => some (.ldReg (xField w) (yField w))
  | 0x1 => some (.or (xField w) (yField w))
  | 0x2 => some (.and (xField w) (yField w))
  | 0x3 => some (.xor (xField w) (yField w))
  | 0x4 => some (.addReg (xField w) (yField w))
  | 0x5 => some (.sub (xField w) (yField w))
  | 0x6 => some (.shr (xField w) (yField w))
  | 0x7 => some (.subn (xField w) (yField w))
  | 0xE => some (.shl (xField w) (yField w))
  | _ => none

/-- Family E by its low byte (30_encoding.md R64). -/
def decodeKey (w : Word) : Option Instr :=
  match (nnField w).toNat with
  | 0x9E => some (.skp (xField w))
  | 0xA1 => some (.sknp (xField w))
  | _ => none

/-- Family F by its low byte (30_encoding.md R64; the direction of FX07 and FX15 is R65 note b). -/
def decodeMisc (w : Word) : Option Instr :=
  match (nnField w).toNat with
  | 0x07 => some (.ldVxDt (xField w))
  | 0x0A => some (.ldVxK (xField w))
  | 0x15 => some (.ldDtVx (xField w))
  | 0x18 => some (.ldStVx (xField w))
  | 0x1E => some (.addI (xField w))
  | 0x29 => some (.ldF (xField w))
  | 0x33 => some (.ldB (xField w))
  | 0x55 => some (.ldMemVx (xField w))
  | 0x65 => some (.ldVxMem (xField w))
  | _ => none

/-- The instruction a word stands for, or none where the word is unrecognised (30_encoding.md R64). -/
def decodeForm (w : Word) : Option Instr :=
  match (opField w).toNat with
  | 0x0 => if w = 0x00E0#16 then some .cls else if w = 0x00EE#16 then some .ret else none
  | 0x1 => some (.jp (nnnField w))
  | 0x2 => some (.call (nnnField w))
  | 0x3 => some (.seImm (xField w) (nnField w))
  | 0x4 => some (.sneImm (xField w) (nnField w))
  | 0x5 => if nField w = 0x0#4 then some (.seReg (xField w) (yField w)) else none
  | 0x6 => some (.ldImm (xField w) (nnField w))
  | 0x7 => some (.addImm (xField w) (nnField w))
  | 0x8 => decodeAlu w
  | 0x9 => if nField w = 0x0#4 then some (.sneReg (xField w) (yField w)) else none
  | 0xA => some (.ldI (nnnField w))
  | 0xB => some (.jpV0 (nnnField w))
  | 0xC => some (.rnd (xField w) (nnField w))
  | 0xD => some (.drw (xField w) (yField w) (nField w))
  | 0xE => decodeKey w
  | _ => decodeMisc w

/-- Decoding one word: an instruction, or the rejection `unknownOpcode` by name (30_encoding.md R64, R66). -/
def decodeWord (w : Word) : Except DecodeError Instr :=
  match decodeForm w with
  | some i => .ok i
  | none => .error (.unknownOpcode w)

/-- An opcode from its two bytes, the most significant first (20_memory.md R46, 30_encoding.md R60). -/
def wordOfBytes (hi lo : Byte) : Word := hi ++ lo

/-- Decoding bytes: the instruction at their front and the bytes after it (30_encoding.md R60). -/
def decode : List Byte → Except DecodeError (Instr × List Byte)
  | hi :: lo :: rest =>
    match decodeWord (wordOfBytes hi lo) with
    | .ok i => .ok (i, rest)
    | .error e => .error e
  | _ => .error .truncated

/-- The first byte in memory of an opcode: its bits 15..8 (20_memory.md R46). -/
def hiByte (w : Word) : Byte := w.extractLsb' 8 8

/-- The second byte in memory of an opcode: its bits 7..0 (20_memory.md R46). -/
def loByte (w : Word) : Byte := w.extractLsb' 0 8

/-- Format NNN (30_encoding.md R62). -/
def wordNNN (op : BitVec 4) (nnn : BitVec 12) : Word := op ++ nnn

/-- Formats XNN and X: in format X the low byte is fixed (30_encoding.md R62). -/
def wordXNN (op : BitVec 4) (x : Reg) (nn : Byte) : Word := op ++ (BitVec.ofFin x : BitVec 4) ++ nn

/-- Formats XYN and XY: in format XY the low nibble is fixed (30_encoding.md R62). -/
def wordXYN (op : BitVec 4) (x y : Reg) (n : BitVec 4) : Word :=
  op ++ (BitVec.ofFin x : BitVec 4) ++ (BitVec.ofFin y : BitVec 4) ++ n

/-- The word of an instruction (30_encoding.md R62, R65). -/
def encode : Instr → Word
  | .cls => 0x00E0#16
  | .ret => 0x00EE#16
  | .jp nnn => wordNNN 0x1 nnn
  | .call nnn => wordNNN 0x2 nnn
  | .seImm x nn => wordXNN 0x3 x nn
  | .sneImm x nn => wordXNN 0x4 x nn
  | .seReg x y => wordXYN 0x5 x y 0x0
  | .ldImm x nn => wordXNN 0x6 x nn
  | .addImm x nn => wordXNN 0x7 x nn
  | .ldReg x y => wordXYN 0x8 x y 0x0
  | .or x y => wordXYN 0x8 x y 0x1
  | .and x y => wordXYN 0x8 x y 0x2
  | .xor x y => wordXYN 0x8 x y 0x3
  | .addReg x y => wordXYN 0x8 x y 0x4
  | .sub x y => wordXYN 0x8 x y 0x5
  | .shr x y => wordXYN 0x8 x y 0x6
  | .subn x y => wordXYN 0x8 x y 0x7
  | .shl x y => wordXYN 0x8 x y 0xE
  | .sneReg x y => wordXYN 0x9 x y 0x0
  | .ldI nnn => wordNNN 0xA nnn
  | .jpV0 nnn => wordNNN 0xB nnn
  | .rnd x nn => wordXNN 0xC x nn
  | .drw x y n => wordXYN 0xD x y n
  | .skp x => wordXNN 0xE x 0x9E
  | .sknp x => wordXNN 0xE x 0xA1
  | .ldVxDt x => wordXNN 0xF x 0x07
  | .ldVxK x => wordXNN 0xF x 0x0A
  | .ldDtVx x => wordXNN 0xF x 0x15
  | .ldStVx x => wordXNN 0xF x 0x18
  | .addI x => wordXNN 0xF x 0x1E
  | .ldF x => wordXNN 0xF x 0x29
  | .ldB x => wordXNN 0xF x 0x33
  | .ldMemVx x => wordXNN 0xF x 0x55
  | .ldVxMem x => wordXNN 0xF x 0x65

/-- The two bytes of an instruction as memory holds them, the most significant first (30_encoding.md R60). -/
def encodeBytes (i : Instr) : List Byte := [hiByte (encode i), loByte (encode i)]

/-- The word of an instruction whose bits are `w`, numbered as spec/opcode_table.json numbers them: the first (and only)
word is bits 15..0, and bits above `nbits` are 0. -/
def tableWord (nbits w : Nat) : Word := BitVec.ofNat 16 (w % 2 ^ nbits)

/-- What the decoder reads from an instruction whose bits are `w`, laid out in memory order. -/
def decodeTableWord (nbits w : Nat) : Option Instr :=
  match decode [hiByte (tableWord nbits w), loByte (tableWord nbits w)] with
  | .ok (i, _) => some i
  | .error _ => none

end Sys2Proof
end

