-- ==== Sys2Proof/Machine/Ops.lean ====
section
/-! DEFINITION. The shared operations over memory, the program counter, the call stack, the key latch and the framebuffer,
and reporting a condition (the machine's only form of exception). -/

namespace Sys2Proof.Machine

/-! ## Memory as a list of cells -/

/-- What an address with no listed cell reads as: the reset contents, the glyph bytes at 0x000..0x04F and 0 above
(20_memory.md R42, 10_state.md R35). -/
def Memory.unlisted (font : Vector Byte 80) (a : Nat) : Byte :=
  if h : a < 80 then font[a] else 0

/-- The byte at an address. -/
def Memory.read (font : Vector Byte 80) : Memory → Nat → Byte
  | [], a => Memory.unlisted font a
  | c :: cs, a => if c.1 = a then c.2 else Memory.read font cs a

/-- The list without the cell of an address. -/
def Memory.erase : Memory → Nat → Memory
  | [], _ => []
  | c :: cs, a => if c.1 = a then Memory.erase cs a else c :: Memory.erase cs a

/-- The list with one cell more, put before the first higher address. -/
def Memory.insert : Memory → Nat → Byte → Memory
  | [], a, b => [(a, b)]
  | c :: cs, a, b => if c.1 < a then c :: Memory.insert cs a b else (a, b) :: c :: cs

/-- Storing a byte: a byte equal to what the address reads as when unlisted leaves no cell, so that equal memories are
equal lists. -/
def Memory.write (font : Vector Byte 80) (m : Memory) (a : Nat) (b : Byte) : Memory :=
  if b = Memory.unlisted font a then Memory.erase m a else Memory.insert (Memory.erase m a) a b

/-- The canonical form from address `low` on: addresses strictly rising and at most 0xFFF, no cell equal to what its
address reads as when unlisted. -/
def Memory.wfFrom (font : Vector Byte 80) : Nat → Memory → Bool
  | _, [] => true
  | low, c :: cs =>
    decide (low ≤ c.1) && decide (c.1 ≤ Config.maxAddr) && (c.2 != Memory.unlisted font c.1) &&
      Memory.wfFrom font (c.1 + 1) cs

/-- The canonical form of memory. -/
def Memory.wf (font : Vector Byte 80) (m : Memory) : Bool := Memory.wfFrom font 0 m

/-! ## Memory of the machine -/

/-- `MEM[a]` (20_memory.md R40). -/
def State.peek (s : State) (a : Nat) : Byte := Memory.read s.font s.mem a

/-- `MEM[a] <- b` (20_memory.md R45). -/
def State.poke (s : State) (a : Nat) (b : Byte) : State := { s with mem := Memory.write s.font s.mem a b }

/-- Bytes stored at ascending addresses, all of them addresses of memory (70_reset_and_hazards.md R183). -/
def State.pokeAll (s : State) : Nat → List Byte → State
  | _, [] => s
  | a, b :: bs => (s.poke a b).pokeAll (a + 1) bs

/-- `MemRead(addr, 1)`: the address is a true sum, never masked or wrapped (20_memory.md R44). -/
def State.memRead (s : State) (a : Nat) : Except Report Byte :=
  if a ≤ Config.maxAddr then .ok (s.peek a) else .error (.memoryBounds a)

/-- `MemWrite(addr, 1, v)` (20_memory.md R45). -/
def State.memWrite (s : State) (a : Nat) (b : Byte) : Except Report State :=
  if a ≤ Config.maxAddr then .ok (s.poke a b) else .error (.memoryBounds a)

/-- `n` reads at ascending addresses (20_memory.md R47). The first address out of range is reported, which is the lowest one
(60_exceptions.md R154). -/
def State.readBlock (s : State) : Nat → Nat → Except Report (List Byte)
  | _, 0 => .ok []
  | a, n + 1 =>
    match s.memRead a with
    | .error c => .error c
    | .ok b =>
      match s.readBlock (a + 1) n with
      | .error c => .error c
      | .ok bs => .ok (b :: bs)

/-- Writes at ascending addresses (20_memory.md R47). An address out of range gives the report and no state, so no part of
the block is stored (20_memory.md R45; the spec's decision D22). -/
def State.writeBlock (s : State) : Nat → List Byte → Except Report State
  | _, [] => .ok s
  | a, b :: bs =>
    match s.memWrite a b with
    | .error c => .error c
    | .ok t => t.writeBlock (a + 1) bs

/-! ## Reporting a condition -/

/-- `raise C(info)`, the one way an exception is taken (40_step_cycle.md R84, 60_exceptions.md R159): nothing of the machine
changes, control goes nowhere, and the condition is what the step returns. `reported` latches it (R172, log entry 4). -/
def State.raise (s : State) (c : Report) : State := { s with report := some c, reported := true }

/-- The end of an execute phase that may raise: where an access or a check went through, the state the instruction makes of
its result; where it raised, the state at the start of the step with the report (40_step_cycle.md R84). -/
def State.finish {α : Type} (s : State) (r : Except Report α) (k : α → State) : Host.Outcome State Fault Refusal :=
  match r with
  | .ok a => .next (k a)
  | .error c => .next (s.raise c)

/-! ## The program counter -/

/-- `pc <- target` (00_scope.md R10). -/
def State.setPc (s : State) (target : Word) : State := { s with pc := target }

/-- The sequential advance `pc <- (pc + 2) mod 65536` (40_step_cycle.md R82). -/
def State.advance (s : State) : State := { s with pc := s.pc + 2 }

/-- A conditional skip: `pc + 4` when the condition holds, else `pc + 2` (40_step_cycle.md R83). -/
def State.skipIf (s : State) (c : Bool) : State := { s with pc := if c then s.pc + 4 else s.pc + 2 }

/-! ## The call stack -/

/-- Push the address of the executing instruction (41_flow.md R92, 10_state.md R26). -/
def State.pushPc (s : State) : Except Report State :=
  if h : s.sp.val < 16 then
    .ok { s with stack := s.stack.set s.sp.val s.pc h, sp := ⟨s.sp.val + 1, by omega⟩ }
  else .error (.stackOverflow s.pc)

/-- Pop: the most recent push and the state without it; the slot keeps its value (41_flow.md R90, 10_state.md R26). -/
def State.popStack (s : State) : Except Report (Word × State) :=
  if h : 0 < s.sp.val then
    .ok (s.stack[s.sp.val - 1], { s with sp := ⟨s.sp.val - 1, by omega⟩ })
  else .error (.stackUnderflow s.pc)

/-! ## The key latch -/

/-- The keys pressed at this step, by rising number (45_keys_timers.md R143). -/
def State.pressedKeys (s : State) : List Key := (List.finRange 16).filter (fun k => s.keys[k])

/-- `KEY_SELECT(P)`: some member of `P`, and the only member where there is one (00_scope.md R6, 45_keys_timers.md R143).
Among several the free value picks (log entry 3). -/
def selectKey : List Key → Option Key
  | [] => none
  | [k] => some k
  | k :: k' :: ks =>
    some ((k :: k' :: ks).getD (Config.keyChoice (k :: k' :: ks) % (k :: k' :: ks).length) k)

/-! ## The framebuffer -/

/-- `FB[x, y]` (44_display.md R130). -/
def Framebuffer.pixel (fb : Framebuffer) (x : Fin 64) (y : Fin 32) : Bool := fb[y][x]

/-- `FB[x, y] <- not FB[x, y]` (44_display.md R132). -/
def Framebuffer.toggle (fb : Framebuffer) (x : Fin 64) (y : Fin 32) : Framebuffer :=
  fb.set y (fb[y].set x (!fb[y][x]))

/-- All pixels off (44_display.md R131). -/
def Framebuffer.blank : Framebuffer := Vector.replicate 32 (Vector.replicate 64 false)

/-- The column of sprite column `col` drawn at `x0`, wrapped (44_display.md R132). -/
def wrapColumn (x0 col : Nat) : Fin 64 := Fin.ofNat 64 (x0 + col)

/-- The row of sprite row `row` drawn at `y0`, wrapped (44_display.md R132). -/
def wrapRow (y0 row : Nat) : Fin 32 := Fin.ofNat 32 (y0 + row)

/-- One bit of a sprite: a set bit toggles its pixel, and collides where the pixel was on (44_display.md R132). -/
def drawBit (bit : Bool) (x : Fin 64) (y : Fin 32) (acc : Framebuffer × Bool) : Framebuffer × Bool :=
  if bit then (acc.1.toggle x y, acc.2 || acc.1.pixel x y) else acc

/-- One sprite row: eight columns, the most significant bit first (44_display.md R132). -/
def drawRow (x0 : Nat) (y : Fin 32) (b : Byte) (acc : Framebuffer × Bool) : Framebuffer × Bool :=
  (List.range 8).foldl (fun acc col => drawBit (b.getLsbD (7 - col)) (wrapColumn x0 col) y acc) acc

/-- The rows of a sprite from row number `row` on: the framebuffer after it, and whether a pixel went from on to off
(44_display.md R132). -/
def drawRows (x0 y0 : Nat) : Nat → List Byte → Framebuffer × Bool → Framebuffer × Bool
  | _, [], acc => acc
  | row, b :: bs, acc => drawRows x0 y0 (row + 1) bs (drawRow x0 (wrapRow y0 row) b acc)

/-- `FB` and `DIRTY` after a drawing instruction, which always sets the dirty flag (10_state.md R31). -/
def State.setDisplay (s : State) (fb : Framebuffer) : State := { s with fb := fb, dirty := true }

/-! ## The random byte -/

/-- The byte this CXNN draws: a free value (42_alu.md R112, log entry 2). -/
def State.randByte (s : State) : Byte := Config.randByte s.draws

/-- One draw more has been taken. -/
def State.countDraw (s : State) : State := { s with draws := s.draws + 1 }

end Sys2Proof.Machine
end

