-- ==== Sys2Proof/Machine/Alu.lean ====
section
/-! DEFINITION. Register load, arithmetic, logic, shift and random (42_alu.md). Operands are read from the state at the
start; the flag, where there is one, is written after the result, so with X = F the flag stays (40_step_cycle.md R85). -/

namespace Sys2Proof.Machine

/-- 6XNN `LD VX, NN` (42_alu.md R101). -/
def execLdImm (x : Reg) (nn : Byte) (s : State) : Host.Outcome State Fault Refusal :=
  .next (s.setV x nn).advance

/-- 7XNN `ADD VX, NN` (42_alu.md R102): no flag (the spec's decision D15). -/
def execAddImm (x : Reg) (nn : Byte) (s : State) : Host.Outcome State Fault Refusal :=
  .next (s.setV x (s.getV x + nn)).advance

/-- 8XY0 `LD VX, VY` (42_alu.md R103). -/
def execLdReg (x y : Reg) (s : State) : Host.Outcome State Fault Refusal :=
  .next (s.setV x (s.getV y)).advance

/-- 8XY1 `OR VX, VY` (42_alu.md R104): no flag (the spec's decision D15). -/
def execOr (x y : Reg) (s : State) : Host.Outcome State Fault Refusal :=
  .next (s.setV x (s.getV x ||| s.getV y)).advance

/-- 8XY2 `AND VX, VY` (42_alu.md R105): no flag (the spec's decision D15). -/
def execAnd (x y : Reg) (s : State) : Host.Outcome State Fault Refusal :=
  .next (s.setV x (s.getV x &&& s.getV y)).advance

/-- 8XY3 `XOR VX, VY` (42_alu.md R106): no flag (the spec's decision D15). -/
def execXor (x y : Reg) (s : State) : Host.Outcome State Fault Refusal :=
  .next (s.setV x (s.getV x ^^^ s.getV y)).advance

/-- 8XY4 `ADD VX, VY` (42_alu.md R107). -/
def execAddReg (x y : Reg) (s : State) : Host.Outcome State Fault Refusal :=
  .next ((s.setV x (s.getV x + s.getV y)).setFlag (carryFlag (s.getV x) (s.getV y))).advance

/-- 8XY5 `SUB VX, VY` (42_alu.md R108). -/
def execSub (x y : Reg) (s : State) : Host.Outcome State Fault Refusal :=
  .next ((s.setV x (s.getV x - s.getV y)).setFlag (noBorrowFlag (s.getV x) (s.getV y))).advance

/-- 8XY6 `SHR VX` (42_alu.md R109): VX in place; the Y field has no effect (the spec's decision D14). -/
def execShr (x _y : Reg) (s : State) : Host.Outcome State Fault Refusal :=
  .next ((s.setV x (s.getV x >>> 1)).setFlag (lsbFlag (s.getV x))).advance

/-- 8XY7 `SUBN VX, VY` (42_alu.md R110). -/
def execSubn (x y : Reg) (s : State) : Host.Outcome State Fault Refusal :=
  .next ((s.setV x (s.getV y - s.getV x)).setFlag (noBorrowFlag (s.getV y) (s.getV x))).advance

/-- 8XYE `SHL VX` (42_alu.md R111): VX in place; the Y field has no effect (the spec's decision D14). -/
def execShl (x _y : Reg) (s : State) : Host.Outcome State Fault Refusal :=
  .next ((s.setV x (s.getV x <<< 1)).setFlag (msbFlag (s.getV x))).advance

/-- CXNN `RND VX, NN` (42_alu.md R112): a free byte under the mask NN (log entry 2). -/
def execRnd (x : Reg) (nn : Byte) (s : State) : Host.Outcome State Fault Refusal :=
  .next (s.countDraw.setV x (s.randByte &&& nn)).advance

end Sys2Proof.Machine
end

