-- ==== Sys2Proof/Machine/Display.lean ====
section
/-! DEFINITION. The display (44_display.md). -/

namespace Sys2Proof.Machine

/-- 00E0 `CLS` (44_display.md R131): VF is not written. -/
def execCls (s : State) : Host.Outcome State Fault Refusal :=
  .next (s.setDisplay Framebuffer.blank).advance

/-- The framebuffer and the collision of a sprite with these rows at `(V[X], V[Y])` (44_display.md R132). -/
def State.drawSprite (s : State) (x y : Reg) (rows : List Byte) : Framebuffer × Bool :=
  drawRows (s.getV x).toNat (s.getV y).toNat 0 rows (s.fb, false)

/-- DXYN `DRW VX, VY, N` (44_display.md R132): the rows are read before any pixel is touched; with N = 0 nothing is read; VF
is written last, with the collision flag. -/
def execDrw (x y : Reg) (n : BitVec 4) (s : State) : Host.Outcome State Fault Refusal :=
  s.finish (s.readBlock s.i.toNat n.toNat) (fun rows =>
    ((s.setDisplay (s.drawSprite x y rows).1).setFlag (s.drawSprite x y rows).2).advance)

end Sys2Proof.Machine
end

