-- ==== Sys2Proof/Machine/Flow.lean ====
section
/-! DEFINITION. Control transfer (41_flow.md). No target is checked at the transfer, and none needs alignment. -/

namespace Sys2Proof.Machine

/-- 00EE `RET` (41_flow.md R90): the popped address is the call's own, so execution resumes 2 after it. -/
def execRet (s : State) : Host.Outcome State Fault Refusal :=
  s.finish s.popStack (fun p => p.2.setPc (p.1 + 2))

/-- 1NNN `JP NNN` (41_flow.md R91). -/
def execJp (nnn : BitVec 12) (s : State) : Host.Outcome State Fault Refusal :=
  .next (s.setPc (zextAddr nnn))

/-- 2NNN `CALL NNN` (41_flow.md R92). -/
def execCall (nnn : BitVec 12) (s : State) : Host.Outcome State Fault Refusal :=
  s.finish s.pushPc (fun t => t.setPc (zextAddr nnn))

/-- 3XNN `SE VX, NN` (41_flow.md R93). -/
def execSeImm (x : Reg) (nn : Byte) (s : State) : Host.Outcome State Fault Refusal :=
  .next (s.skipIf (decide (s.getV x = nn)))

/-- 4XNN `SNE VX, NN` (41_flow.md R94). -/
def execSneImm (x : Reg) (nn : Byte) (s : State) : Host.Outcome State Fault Refusal :=
  .next (s.skipIf (decide (s.getV x ≠ nn)))

/-- 5XY0 `SE VX, VY` (41_flow.md R95). -/
def execSeReg (x y : Reg) (s : State) : Host.Outcome State Fault Refusal :=
  .next (s.skipIf (decide (s.getV x = s.getV y)))

/-- 9XY0 `SNE VX, VY` (41_flow.md R96). -/
def execSneReg (x y : Reg) (s : State) : Host.Outcome State Fault Refusal :=
  .next (s.skipIf (decide (s.getV x ≠ s.getV y)))

/-- BNNN `JP V0, NNN` (41_flow.md R97). -/
def execJpV0 (nnn : BitVec 12) (s : State) : Host.Outcome State Fault Refusal :=
  .next (s.setPc (s.indexedTarget nnn))

end Sys2Proof.Machine
end

