-- ==== Sys2Proof/Machine/Index.lean ====
section
/-! DEFINITION. The index register, BCD, and the register blocks (43_index_memory.md). A block that reaches above 0xFFF
reports `MemoryBounds` and leaves registers, memory, `I` and `pc` as they were. -/

namespace Sys2Proof.Machine

/-- ANNN `LD I, NNN` (43_index_memory.md R120). -/
def execLdI (nnn : BitVec 12) (s : State) : Host.Outcome State Fault Refusal :=
  .next (s.setI (zextAddr nnn)).advance

/-- FX1E `ADD I, VX` (43_index_memory.md R121): the flag is of the true sum; `I` is not masked to 12 bits. -/
def execAddI (x : Reg) (s : State) : Host.Outcome State Fault Refusal :=
  .next ((s.setI (s.indexPlus x)).setFlag (rangeFlag s.i (s.getV x))).advance

/-- FX29 `LD F, VX` (43_index_memory.md R122): every value of VX, without a mask. -/
def execLdF (x : Reg) (s : State) : Host.Outcome State Fault Refusal :=
  .next (s.setI (glyphAddress (s.getV x))).advance

/-- FX33 `LD B, VX` (43_index_memory.md R123): `I` does not move. -/
def execLdB (x : Reg) (s : State) : Host.Outcome State Fault Refusal :=
  s.finish (s.writeBlock s.i.toNat (bcdDigits (s.getV x))) (fun t => t.advance)

/-- FX55 `LD [I], VX` (43_index_memory.md R124): registers 0 to X inclusive, then `I` moves past them. -/
def execLdMemVx (x : Reg) (s : State) : Host.Outcome State Fault Refusal :=
  s.finish (s.writeBlock s.i.toNat (s.firstRegs x)) (fun t => (t.setI (s.indexPast x)).advance)

/-- FX65 `LD VX, [I]` (43_index_memory.md R125): registers 0 to X inclusive, then `I` moves past the block. -/
def execLdVxMem (x : Reg) (s : State) : Host.Outcome State Fault Refusal :=
  s.finish (s.readBlock s.i.toNat (x.val + 1)) (fun bs => ((s.setFirstRegs bs).setI (s.indexPast x)).advance)

end Sys2Proof.Machine
end

