-- ==== Sys2Proof/Machine/KeysTimers.lean ====
section
/-! DEFINITION. Key skips, key wait and timer access (45_keys_timers.md). The tick of the same step comes after. -/

namespace Sys2Proof.Machine

/-- EX9E `SKP VX` (45_keys_timers.md R140). -/
def execSkp (x : Reg) (s : State) : Host.Outcome State Fault Refusal :=
  s.finish (s.keyAt x) (fun pressed => s.skipIf pressed)

/-- EXA1 `SKNP VX` (45_keys_timers.md R141). -/
def execSknp (x : Reg) (s : State) : Host.Outcome State Fault Refusal :=
  s.finish (s.keyAt x) (fun pressed => s.skipIf (!pressed))

/-- FX07 `LD VX, DT` (45_keys_timers.md R142): the timer as the previous step's tick left it. -/
def execLdVxDt (x : Reg) (s : State) : Host.Outcome State Fault Refusal :=
  .next (s.setV x s.dt).advance

/-- FX0A `LD VX, K` (45_keys_timers.md R143): with no key pressed nothing is written and `pc` stays, so the next step
executes it again; otherwise the chosen key, in this same step. -/
def execLdVxK (x : Reg) (s : State) : Host.Outcome State Fault Refusal :=
  match selectKey s.pressedKeys with
  | none => .next s
  | some k => .next (s.setV x (BitVec.ofNat 8 k.val)).advance

/-- FX15 `LD DT, VX` (45_keys_timers.md R144). -/
def execLdDtVx (x : Reg) (s : State) : Host.Outcome State Fault Refusal :=
  .next (s.setDt (s.getV x)).advance

/-- FX18 `LD ST, VX` (45_keys_timers.md R145). -/
def execLdStVx (x : Reg) (s : State) : Host.Outcome State Fault Refusal :=
  .next (s.setSt (s.getV x)).advance

end Sys2Proof.Machine
end

