-- ==== Sys2Proof/Machine/Fetch.lean ====
section
/-! DEFINITION. Phases 1 and 2 of a step, fetching and decoding, and the frame of a step around its execute phase
(40_step_cycle.md R80). -/

namespace Sys2Proof.Machine

/-- Fetch: two bytes at `pc` and `pc + 1`, the first the most significant; the sum does not wrap (20_memory.md R46,
40_step_cycle.md R81). -/
def State.fetch (s : State) : Except Report Word :=
  match s.memRead s.pc.toNat with
  | .error c => .error c
  | .ok hi =>
    match s.memRead (s.pc.toNat + 1) with
    | .error c => .error c
    | .ok lo => .ok (wordOfBytes hi lo)

/-- Fetch and decode: the instruction at `pc`, or `MemoryBounds`, or `UnknownOpcode` with the address and the word
(40_step_cycle.md R80, 60_exceptions.md R151). -/
def State.fetchInstr (s : State) : Except Report Instr :=
  match s.fetch with
  | .error c => .error c
  | .ok w =>
    match decodeWord w with
    | .ok i => .ok i
    | .error _ => .error (.unknownOpcode s.pc w)

/-- `report <- None`, with which a step begins (40_step_cycle.md R80). -/
def State.startStep (s : State) : State := { s with report := none }

end Sys2Proof.Machine
end

