-- ==== Sys2Proof/Machine/Timer.lean ====
section
/-! DEFINITION. The timer unit: phase 4 of a step (60_exceptions.md R160). -/

namespace Sys2Proof.Machine

/-- A counter after one tick: it never goes below 0 (60_exceptions.md R160). -/
def countDown (b : Byte) : Byte := if b.toNat > 0 then b - 1 else b

/-- `TimerTick()`: both counters count down, each alone, and `SOUND_ACTIVE` says whether this tick took `ST` from 1 to 0
(60_exceptions.md R160, R161, R163). -/
def State.tick (s : State) : State :=
  { s with
    dt := countDown s.dt
    st := countDown s.st
    soundActive := decide (s.st.toNat > 0) && decide (countDown s.st = 0) }

/-- The tick after an execute phase, whether the instruction completed or reported (40_step_cycle.md R86). -/
def tickAfter (o : Host.Outcome State Fault Refusal) : Host.Outcome State Fault Refusal :=
  match o with
  | .next s => .next s.tick
  | .fault f => .fault f
  | .refused r => .refused r

end Sys2Proof.Machine
end

