-- ==== Sys2Proof/Machine/Step.lean ====
section
/-! DEFINITION. The step transaction (40_step_cycle.md R80): fetch, decode, execute, tick. -/

namespace Sys2Proof.Machine

/-- `step()` (40_step_cycle.md R80). A condition of fetch or decode leaves the state as it was and is reported; the tick runs
on every path (R84, R86). -/
def step (s : State) : Host.Outcome State Fault Refusal :=
  match s.startStep.fetchInstr with
  | .ok i => tickAfter (exec i s.startStep)
  | .error c => tickAfter (.next (s.startStep.raise c))

/-- The state with the instruction whose bits are `w` stored at `pc`, the most significant byte first (20_memory.md R46).
Where no instruction can be fetched from `pc` (above 0xFFE) the fetch needs another `pc` too: the load address 0x200. It
stands for loading a program from outside (log entry 6). -/
def State.withFetchWord (s : State) (nbits w : Nat) : State :=
  let t := if s.pc.toNat + 1 ≤ Config.maxAddr then s else s.setPc (BitVec.ofNat 16 Config.progBase)
  (t.poke t.pc.toNat (hiByte (tableWord nbits w))).poke (t.pc.toNat + 1) (loByte (tableWord nbits w))

end Sys2Proof.Machine
end

