-- ==== Sys2Proof/Machine/Transactions.lean ====
section
/-! DEFINITION. The transactions of 00_scope.md R7: what the host may do between two steps, and the step itself as one of
them. Each is atomic and total (R8). -/

namespace Sys2Proof.Machine

/-- `reset()` (70_reset_and_hazards.md R180): every element of the hardware at its reset value, whatever it was. The
parameter `FONT` is a constant and stays; the draws already taken stay taken (log entries 1, 2). -/
def State.resetAll (s : State) : State := { State.reset with font := s.font, draws := s.draws }

/-- `load(romBytes)` (70_reset_and_hazards.md R183, R184): too long a sequence is rejected before anything is changed. -/
def State.load (s : State) (rom : List Byte) : State × Option Report :=
  if rom.length ≤ Config.romMax then (s.pokeAll Config.progBase rom, none)
  else (s, some (.loadOverflow rom.length))

/-- `setKey(index, pressed)` (60_exceptions.md R166). -/
def State.setKey (s : State) (index : Int) (pressed : Bool) : State × Option Report :=
  if h : 0 ≤ index ∧ index < 16 then
    ({ s with keys := s.keys.set index.toNat pressed (by omega) }, none)
  else (s, some (.keyIndexError index))

/-- `isSoundActive()` (60_exceptions.md R164). -/
def State.isSoundActive (s : State) : Bool := s.soundActive

/-- `readFramebuffer()`: the 2048 pixels, row-major (60_exceptions.md R167, 44_display.md R130). -/
def State.readFramebuffer (s : State) : List Bool := s.fb.toList.flatMap (fun row => row.toList)

/-- `readDirty()` (60_exceptions.md R168). -/
def State.readDirty (s : State) : Bool := s.dirty

/-- `clearDirty()` (60_exceptions.md R168). -/
def State.clearDirty (s : State) : State := { s with dirty := false }

/-- A transaction with its arguments (00_scope.md R7). -/
inductive Transaction where
  | reset
  | load (rom : List Byte)
  | step
  | setKey (index : Int) (pressed : Bool)
  | isSoundActive
  | readFramebuffer
  | readDirty
  | clearDirty
deriving DecidableEq, Repr

/-- What a transaction returns (00_scope.md R7). -/
inductive Answer where
  /-- Nothing: `reset`, `clearDirty`. -/
  | done
  /-- `None` or `ok`, or one reported condition: `step`, `load`, `setKey`. -/
  | report (r : Option Report)
  /-- A boolean: `isSoundActive`, `readDirty`. -/
  | bool (b : Bool)
  /-- The pixels: `readFramebuffer`. -/
  | pixels (ps : List Bool)
deriving DecidableEq, Repr

/-- One transaction: the state after it and what it returns (00_scope.md R7, R8). -/
def perform (t : Transaction) (s : State) : Host.Outcome (State × Answer) Fault Refusal :=
  match t with
  | .reset => .next (s.resetAll, .done)
  | .load rom => .next ((s.load rom).1, .report (s.load rom).2)
  | .step =>
    match Sys2Proof.Machine.step s with
    | .next u => .next (u, .report u.report)
    | .fault f => .fault f
    | .refused r => .refused r
  | .setKey index pressed => .next ((s.setKey index pressed).1, .report (s.setKey index pressed).2)
  | .isSoundActive => .next (s, .bool s.isSoundActive)
  | .readFramebuffer => .next (s, .pixels s.readFramebuffer)
  | .readDirty => .next (s, .bool s.readDirty)
  | .clearDirty => .next (s.clearDirty, .done)

/-- A run: transactions in the order the host issues them (00_scope.md R8). -/
def performAll : List Transaction → State → Host.Outcome State Fault Refusal
  | [], s => .next s
  | t :: ts, s =>
    match perform t s with
    | .next u => performAll ts u.1
    | .fault f => .fault f
    | .refused r => .refused r

end Sys2Proof.Machine
end

