-- ==== Sys2Proof/Safety.lean ====
section
/-! DEFINITION. What counts as a safe state and a safe run, in the terms the claims use. -/

namespace Sys2Proof.Machine

/-- What holds of a machine that started at reset, whatever program and host it has met:
memory is in its canonical form; every stack slot holds 0 or the address of a fetched 2NNN (41_flow.md R92); `pc` is at most
0x10FE (10_state.md R24); `SOUND_ACTIVE` is up only while `ST` is 0 (60_exceptions.md R163); and a report of the last step is
latched (60_exceptions.md R172, log entry 4). -/
structure State.Inv (s : State) : Prop where
  memory : Memory.wf s.font s.mem = true
  stack : ∀ k : Fin 16, s.stack[k].toNat ≤ 0xFFE
  pc : s.pc.toNat ≤ 0x10FE
  sound : s.soundActive = true → s.st = 0
  latch : s.report ≠ none → s.reported = true

/-- `n` steps none of which reports a condition. A state whose next step reports is not a final state (60_exceptions.md
R172). -/
def ReportFree : Nat → State → Prop
  | 0, _ => True
  | n + 1, s => ∃ t, step s = .next t ∧ t.report = none ∧ ReportFree n t

end Sys2Proof.Machine
end

