-- ==== Sys2Proof/Certificates/Slice0/Obligations.lean ====
section
/-! DEFINITION. The statements for the provers. Values are said as the rules say them, as numbers with the `mod` written
out; a frame is said as an equation: the next state is the old one but for the fields named. -/

namespace Sys2Proof.Claims

open Sys2Proof.Machine

/-- `X = opcode[11:8]` as a quotient and remainder (30_encoding.md R61). -/
def fieldX (w : Word) : Reg := Fin.ofNat 16 (w.toNat / 256)

/-- `Y = opcode[7:4]` as a quotient and remainder (30_encoding.md R61). -/
def fieldY (w : Word) : Reg := Fin.ofNat 16 (w.toNat / 16)

/-- `N = opcode[3:0]` as a remainder (30_encoding.md R61). -/
def fieldN (w : Word) : BitVec 4 := BitVec.ofNat 4 w.toNat

/-- `NN = opcode[7:0]` as a remainder (30_encoding.md R61). -/
def fieldNN (w : Word) : Byte := BitVec.ofNat 8 w.toNat

/-- `NNN = opcode[11:0]` as a remainder (30_encoding.md R61). -/
def fieldNNN (w : Word) : BitVec 12 := BitVec.ofNat 12 w.toNat

/-- Every word with this mask and match is the instruction `mk` makes of it: the encoding part of a rule. -/
def EncodedAs (mask pattern : Word) (mk : Word → Instr) : Prop :=
  ∀ w : Word, w &&& mask = pattern → decodeWord w = .ok (mk w)

/-- The state after a raise: the same state, with the report (40_step_cycle.md R84; `reported` is log entry 4). -/
def Reports (s : State) (c : Report) : State := { s with report := some c, reported := true }

/-- The pixel `(px, py)` is one of those the set bits of DXYN's sprite select: bit `7 - col` of the byte at `I + row`
(44_display.md R132, R133). -/
def Selects (s : State) (x y : Reg) (n : BitVec 4) (px : Fin 64) (py : Fin 32) : Prop :=
  ∃ row col : Nat, row < n.toNat ∧ col < 8 ∧
    (s.peek (s.i.toNat + row)).toNat / 2 ^ (7 - col) % 2 = 1 ∧
    px.val = ((s.v[x]).toNat + col) % 64 ∧ py.val = ((s.v[y]).toNat + row) % 32

/-- The conditions an instruction's own execution may raise (60_exceptions.md R158). -/
def MayRaise : Instr → Report → Prop
  | .call _, .stackOverflow _ => True
  | .ret, .stackUnderflow _ => True
  | .drw _ _ _, .memoryBounds _ => True
  | .ldB _, .memoryBounds _ => True
  | .ldMemVx _, .memoryBounds _ => True
  | .ldVxMem _, .memoryBounds _ => True
  | .skp _, .keyIndexRange _ _ => True
  | .sknp _, .keyIndexRange _ _ => True
  | _, _ => False

/-- The registers an instruction may write (10_state.md R36, column V). -/
def MayWriteV : Instr → Reg → Prop
  | .ldImm x _, r | .addImm x _, r | .ldReg x _, r | .or x _, r | .and x _, r | .xor x _, r | .rnd x _, r
  | .ldVxDt x, r | .ldVxK x, r => r = x
  | .addReg x _, r | .sub x _, r | .shr x _, r | .subn x _, r | .shl x _, r => r = x ∨ r = 15
  | .drw _ _ _, r | .addI _, r => r = 15
  | .ldVxMem x, r => r ≤ x
  | _, _ => False

/-- The instructions that may write `I` (10_state.md R36, column I). -/
def MayWriteIndex : Instr → Prop
  | .ldI _ | .addI _ | .ldF _ | .ldMemVx _ | .ldVxMem _ => True
  | _ => False

/-- The addresses an instruction may store to (10_state.md R36, column MEM). -/
def MayStoreAt (s : State) : Instr → Nat → Prop
  | .ldB _, a => s.i.toNat ≤ a ∧ a ≤ s.i.toNat + 2
  | .ldMemVx x, a => s.i.toNat ≤ a ∧ a ≤ s.i.toNat + x.val
  | _, _ => False

/-- The instructions that may write the framebuffer and `DIRTY` (10_state.md R36). -/
def MayDraw : Instr → Prop
  | .cls | .drw _ _ _ => True
  | _ => False

/-- No instruction of the next `n` steps is FX15. -/
def SetsNoDelay : Nat → State → Prop
  | 0, _ => True
  | n + 1, s => (∀ x, s.fetchInstr ≠ .ok (.ldDtVx x)) ∧ ∀ t, step s = .next t → SetsNoDelay n t

end Sys2Proof.Claims

open Sys2Proof Sys2Proof.Machine Sys2Proof.Claims

/-! ## Register load, arithmetic, logic, shift, random -/

/-- 6XNN (42_alu.md R101): encoding, new value, sequential advance, and nothing else changed. -/
def Obligations.LoadImmediateSetsTheRegister : Prop :=
  EncodedAs 0xF000 0x6000 (fun w => .ldImm (fieldX w) (fieldNN w)) ∧
  ∀ (x : Reg) (nn : Byte) (s : State), ∃ t, exec (.ldImm x nn) s = .next t ∧
    (∀ r : Reg, t.v[r] = if r = x then nn else s.v[r]) ∧
    t.pc.toNat = (s.pc.toNat + 2) % 65536 ∧ t = { s with v := t.v, pc := t.pc }

/-- 7XNN (42_alu.md, 7XNN): the sum modulo 256, and no flag, which is the spec's decision D15. -/
def Obligations.AddImmediateWritesNoFlag : Prop :=
  EncodedAs 0xF000 0x7000 (fun w => .addImm (fieldX w) (fieldNN w)) ∧
  ∀ (x : Reg) (nn : Byte) (s : State), ∃ t, exec (.addImm x nn) s = .next t ∧
    (∀ r : Reg, (t.v[r]).toNat = if r = x then ((s.v[x]).toNat + nn.toNat) % 256 else (s.v[r]).toNat) ∧
    t.pc.toNat = (s.pc.toNat + 2) % 65536 ∧ t = { s with v := t.v, pc := t.pc }

/-- 8XY0, 8XY1, 8XY2, 8XY3 (42_alu.md): copy, OR, AND, XOR, bit by bit; no flag, which is the spec's decision D15.
The pairing of low nibble and operation in family 8 is what the spec marks as general knowledge (93_implementation_defined.md
G2). -/
def Obligations.CopyAndLogicWriteOneRegister : Prop :=
  EncodedAs 0xF00F 0x8000 (fun w => .ldReg (fieldX w) (fieldY w)) ∧
  EncodedAs 0xF00F 0x8001 (fun w => .or (fieldX w) (fieldY w)) ∧
  EncodedAs 0xF00F 0x8002 (fun w => .and (fieldX w) (fieldY w)) ∧
  EncodedAs 0xF00F 0x8003 (fun w => .xor (fieldX w) (fieldY w)) ∧
  ∀ (x y : Reg) (s : State) (i : Instr) (bit : Bool → Bool → Bool),
    (i = .ldReg x y ∧ bit = fun _ b => b) ∨ (i = .or x y ∧ bit = Bool.or) ∨
    (i = .and x y ∧ bit = Bool.and) ∨ (i = .xor x y ∧ bit = Bool.xor) →
    ∃ t, exec i s = .next t ∧
      (∀ k < 8, (t.v[x]).getLsbD k = bit ((s.v[x]).getLsbD k) ((s.v[y]).getLsbD k)) ∧
      (∀ r : Reg, r ≠ x → t.v[r] = s.v[r]) ∧
      t.pc.toNat = (s.pc.toNat + 2) % 65536 ∧ t = { s with v := t.v, pc := t.pc }

/-- 8XY4 (42_alu.md, 8XY4): the sum modulo 256, and VF the carry. That VF is written last, so that with X = F the carry is
what stays, is the spec's decision D13; the low nibble 4 is general knowledge (G2). -/
def Obligations.AddRegistersWritesCarry : Prop :=
  EncodedAs 0xF00F 0x8004 (fun w => .addReg (fieldX w) (fieldY w)) ∧
  ∀ (x y : Reg) (s : State), ∃ t, exec (.addReg x y) s = .next t ∧
    (∀ r : Reg, (t.v[r]).toNat =
      if r = 15 then (if (s.v[x]).toNat + (s.v[y]).toNat > 255 then 1 else 0)
      else if r = x then ((s.v[x]).toNat + (s.v[y]).toNat) % 256 else (s.v[r]).toNat) ∧
    t.pc.toNat = (s.pc.toNat + 2) % 65536 ∧ t = { s with v := t.v, pc := t.pc }

/-- 8XY5 and 8XY7 (42_alu.md): the difference modulo 256, and VF is 1 exactly when no borrow occurred. VF last is the spec's
decision D13; the low nibbles 5 and 7 are general knowledge (G2). -/
def Obligations.SubtractWritesNoBorrow : Prop :=
  EncodedAs 0xF00F 0x8005 (fun w => .sub (fieldX w) (fieldY w)) ∧
  EncodedAs 0xF00F 0x8007 (fun w => .subn (fieldX w) (fieldY w)) ∧
  ∀ (x y : Reg) (s : State) (i : Instr) (a b : Byte),
    (i = .sub x y ∧ a = s.v[x] ∧ b = s.v[y]) ∨ (i = .subn x y ∧ a = s.v[y] ∧ b = s.v[x]) →
    ∃ t, exec i s = .next t ∧
      (∀ r : Reg, (t.v[r]).toNat =
        if r = 15 then (if a.toNat ≥ b.toNat then 1 else 0)
        else if r = x then (if a.toNat ≥ b.toNat then a.toNat - b.toNat else a.toNat + 256 - b.toNat)
        else (s.v[r]).toNat) ∧
      t.pc.toNat = (s.pc.toNat + 2) % 65536 ∧ t = { s with v := t.v, pc := t.pc }

/-- 8XY6 and 8XYE (42_alu.md): VX shifted in place by one, VF the bit shifted out, the same for every Y field. That the
operand is VX is the spec's decision D14; that VF is last is D13; the low nibbles 6 and E are general knowledge (G2). -/
def Obligations.ShiftsWriteTheBitShiftedOut : Prop :=
  EncodedAs 0xF00F 0x8006 (fun w => .shr (fieldX w) (fieldY w)) ∧
  EncodedAs 0xF00F 0x800E (fun w => .shl (fieldX w) (fieldY w)) ∧
  ∀ (x y : Reg) (s : State),
    (∃ t, exec (.shr x y) s = .next t ∧
      (∀ r : Reg, (t.v[r]).toNat =
        if r = 15 then (s.v[x]).toNat % 2 else if r = x then (s.v[x]).toNat / 2 else (s.v[r]).toNat) ∧
      t.pc.toNat = (s.pc.toNat + 2) % 65536 ∧ t = { s with v := t.v, pc := t.pc }) ∧
    (∃ t, exec (.shl x y) s = .next t ∧
      (∀ r : Reg, (t.v[r]).toNat =
        if r = 15 then (s.v[x]).toNat / 128 else if r = x then 2 * (s.v[x]).toNat % 256 else (s.v[r]).toNat) ∧
      t.pc.toNat = (s.pc.toNat + 2) % 65536 ∧ t = { s with v := t.v, pc := t.pc })

/-- CXNN (42_alu.md, CXNN): VX gets a free byte under the mask NN, so no bit is set that is clear in NN. The byte is the
free value `Config.randByte` at the count of draws, and each execution takes the next (the spec's decision D16, log entry
2); the statement holds for every value of both. -/
def Obligations.RandomByteIsMasked : Prop :=
  EncodedAs 0xF000 0xC000 (fun w => .rnd (fieldX w) (fieldNN w)) ∧
  ∀ (x : Reg) (nn : Byte) (s : State), ∃ t, exec (.rnd x nn) s = .next t ∧
    (∀ k < 8, (t.v[x]).getLsbD k = ((Config.randByte s.draws).getLsbD k && nn.getLsbD k)) ∧
    (∀ k < 8, nn.getLsbD k = false → (t.v[x]).getLsbD k = false) ∧
    (∀ r : Reg, r ≠ x → t.v[r] = s.v[r]) ∧ t.draws = s.draws + 1 ∧
    t.pc.toNat = (s.pc.toNat + 2) % 65536 ∧ t = { s with v := t.v, pc := t.pc, draws := t.draws }

/-! ## Control transfer -/

/-- 1NNN (41_flow.md R91): the absolute target, every one of the 4096 accepted, and nothing else changed. -/
def Obligations.JumpSetsThePc : Prop :=
  EncodedAs 0xF000 0x1000 (fun w => .jp (fieldNNN w)) ∧
  ∀ (nnn : BitVec 12) (s : State), ∃ t, exec (.jp nnn) s = .next t ∧
    t.pc.toNat = nnn.toNat ∧ t = { s with pc := t.pc }

/-- BNNN (41_flow.md, BNNN): the true sum of NNN and V0. That it is not reduced to 12 bits is the spec's decision D7. -/
def Obligations.IndexedJumpAddsV0 : Prop :=
  EncodedAs 0xF000 0xB000 (fun w => .jpV0 (fieldNNN w)) ∧
  ∀ (nnn : BitVec 12) (s : State), ∃ t, exec (.jpV0 nnn) s = .next t ∧
    t.pc.toNat = nnn.toNat + (s.v[(0 : Reg)]).toNat ∧ t = { s with pc := t.pc }

/-- 2NNN (41_flow.md, 2NNN): with a slot free its own address is pushed and `pc` is NNN; with 16 addresses on the stack it
reports and nothing is pushed. What is pushed and into which slot is the spec's decision D9; the trap is D10. -/
def Obligations.CallPushesItsAddress : Prop :=
  EncodedAs 0xF000 0x2000 (fun w => .call (fieldNNN w)) ∧
  ∀ (nnn : BitVec 12) (s : State),
    (s.sp.val < 16 → ∃ t, exec (.call nnn) s = .next t ∧
      (∀ k : Fin 16, t.stack[k] = if k.val = s.sp.val then s.pc else s.stack[k]) ∧
      t.sp.val = s.sp.val + 1 ∧ t.pc.toNat = nnn.toNat ∧ t = { s with stack := t.stack, sp := t.sp, pc := t.pc }) ∧
    (s.sp.val = 16 → exec (.call nnn) s = .next (Reports s (.stackOverflow s.pc)))

/-- 00EE (41_flow.md, 00EE): with an address on the stack execution resumes 2 after the most recent push; with none it
reports. Where the 2 is added is the spec's decision D9; the trap is D10. -/
def Obligations.ReturnResumesPastTheCall : Prop :=
  decodeWord 0x00EE = .ok .ret ∧
  ∀ s : State,
    (∀ k : Fin 16, s.sp.val = k.val + 1 → ∃ t, exec .ret s = .next t ∧
      t.sp.val = k.val ∧ t.pc.toNat = ((s.stack[k]).toNat + 2) % 65536 ∧ t = { s with sp := t.sp, pc := t.pc }) ∧
    (s.sp.val = 0 → exec .ret s = .next (Reports s (.stackUnderflow s.pc)))

/-- A 2NNN and the 00EE that finds the stack as the 2NNN left it: execution goes on right after the 2NNN and the stack is as
deep as before, whatever the subroutine did to everything else (95_test_vectors.md E6; the spec's decision D9). -/
def Obligations.CallAndReturnBalance : Prop :=
  ∀ (nnn : BitVec 12) (s : State), s.sp.val < 16 → ∃ t, exec (.call nnn) s = .next t ∧
    ∀ t' : State, t'.stack = t.stack → t'.sp = t.sp → ∃ u, exec .ret t' = .next u ∧
      u.pc.toNat = (s.pc.toNat + 2) % 65536 ∧ u.sp = s.sp ∧ u = { t' with sp := u.sp, pc := u.pc }

/-- 3XNN and 4XNN (41_flow.md R93, R94): `pc + 4` when VX equals NN, respectively differs from it, else `pc + 2`; exactly one
of the two skips; and nothing else changed. -/
def Obligations.ImmediateSkipsAreComplements : Prop :=
  EncodedAs 0xF000 0x3000 (fun w => .seImm (fieldX w) (fieldNN w)) ∧
  EncodedAs 0xF000 0x4000 (fun w => .sneImm (fieldX w) (fieldNN w)) ∧
  ∀ (x : Reg) (nn : Byte) (s : State), ∃ t u, exec (.seImm x nn) s = .next t ∧ exec (.sneImm x nn) s = .next u ∧
    t.pc.toNat = (s.pc.toNat + (if (s.v[x]).toNat = nn.toNat then 4 else 2)) % 65536 ∧
    u.pc.toNat = (s.pc.toNat + (if (s.v[x]).toNat = nn.toNat then 2 else 4)) % 65536 ∧
    t.pc ≠ u.pc ∧ t = { s with pc := t.pc } ∧ u = { s with pc := u.pc }

/-- 5XY0 and 9XY0 (41_flow.md): `pc + 4` when VX equals VY, respectively differs from it, else `pc + 2`; with X = Y the first
always skips and the second never. That words with another low nibble are unrecognised is the spec's decision D12. -/
def Obligations.RegisterSkipsCompareTwoRegisters : Prop :=
  EncodedAs 0xF00F 0x5000 (fun w => .seReg (fieldX w) (fieldY w)) ∧
  EncodedAs 0xF00F 0x9000 (fun w => .sneReg (fieldX w) (fieldY w)) ∧
  (∀ w : Word, w.toNat / 4096 = 5 ∨ w.toNat / 4096 = 9 → w.toNat % 16 ≠ 0 → decodeWord w = .error (.unknownOpcode w)) ∧
  (∀ (x y : Reg) (s : State), ∃ t u, exec (.seReg x y) s = .next t ∧ exec (.sneReg x y) s = .next u ∧
    t.pc.toNat = (s.pc.toNat + (if (s.v[x]).toNat = (s.v[y]).toNat then 4 else 2)) % 65536 ∧
    u.pc.toNat = (s.pc.toNat + (if (s.v[x]).toNat = (s.v[y]).toNat then 2 else 4)) % 65536 ∧
    t = { s with pc := t.pc } ∧ u = { s with pc := u.pc }) ∧
  (∀ (x : Reg) (s : State), exec (.seReg x x) s = .next { s with pc := s.pc + 4 } ∧
    exec (.sneReg x x) s = .next { s with pc := s.pc + 2 })

/-! ## Index register, BCD, register blocks -/

/-- ANNN (43_index_memory.md R120): `I` is NNN, its top four bits 0, and nothing else changed. -/
def Obligations.LoadIndexSetsI : Prop :=
  EncodedAs 0xF000 0xA000 (fun w => .ldI (fieldNNN w)) ∧
  ∀ (nnn : BitVec 12) (s : State), ∃ t, exec (.ldI nnn) s = .next t ∧
    t.i.toNat = nnn.toNat ∧ t.pc.toNat = (s.pc.toNat + 2) % 65536 ∧ t = { s with i := t.i, pc := t.pc }

/-- FX1E (43_index_memory.md, FX1E): the sum modulo 65536, not masked to 12 bits (the spec's decision D8), and VF whether the
true sum exceeds 0xFFF, written last (D13). -/
def Obligations.AddIndexFlagsTheRange : Prop :=
  EncodedAs 0xF0FF 0xF01E (fun w => .addI (fieldX w)) ∧
  ∀ (x : Reg) (s : State), ∃ t, exec (.addI x) s = .next t ∧
    t.i.toNat = (s.i.toNat + (s.v[x]).toNat) % 65536 ∧
    (∀ r : Reg, (t.v[r]).toNat =
      if r = 15 then (if s.i.toNat + (s.v[x]).toNat > 0xFFF then 1 else 0) else (s.v[r]).toNat) ∧
    t.pc.toNat = (s.pc.toNat + 2) % 65536 ∧ t = { s with v := t.v, i := t.i, pc := t.pc }

/-- FX29 (43_index_memory.md, FX29): five times VX. That VX is not masked to a digit is the spec's decision D17. -/
def Obligations.GlyphIndexIsFiveTimesTheRegister : Prop :=
  EncodedAs 0xF0FF 0xF029 (fun w => .ldF (fieldX w)) ∧
  ∀ (x : Reg) (s : State), ∃ t, exec (.ldF x) s = .next t ∧
    t.i.toNat = (s.v[x]).toNat * 5 ∧ t.pc.toNat = (s.pc.toNat + 2) % 65536 ∧ t = { s with i := t.i, pc := t.pc }

/-- FX33 (43_index_memory.md, FX33): hundreds, tens and ones at `I`, `I + 1`, `I + 2`, every other byte as it was, `I`
unmoved; above 0xFFF it reports the lowest address out of range and stores nothing, which are the spec's decisions D5 and
D22. -/
def Obligations.BcdStoresThreeDigits : Prop :=
  EncodedAs 0xF0FF 0xF033 (fun w => .ldB (fieldX w)) ∧
  ∀ (x : Reg) (s : State),
    (s.i.toNat + 2 ≤ 0xFFF → ∃ t, exec (.ldB x) s = .next t ∧
      (t.peek s.i.toNat).toNat = (s.v[x]).toNat / 100 ∧
      (t.peek (s.i.toNat + 1)).toNat = (s.v[x]).toNat / 10 % 10 ∧
      (t.peek (s.i.toNat + 2)).toNat = (s.v[x]).toNat % 10 ∧
      (∀ a : Nat, ¬ (s.i.toNat ≤ a ∧ a ≤ s.i.toNat + 2) → t.peek a = s.peek a) ∧
      t.pc.toNat = (s.pc.toNat + 2) % 65536 ∧ t = { s with mem := t.mem, pc := t.pc }) ∧
    (0xFFF < s.i.toNat + 2 → exec (.ldB x) s = .next (Reports s (.memoryBounds (max s.i.toNat 0x1000))))

/-- FX55 (43_index_memory.md, FX55): V0 to VX inclusive at `I` to `I + X`, every other byte as it was, `I` past the block;
above 0xFFF it reports and stores nothing (the spec's decisions D5, D22; `I` not masked is D8). -/
def Obligations.StoreBlockCopiesTheRegisters : Prop :=
  EncodedAs 0xF0FF 0xF055 (fun w => .ldMemVx (fieldX w)) ∧
  ∀ (x : Reg) (s : State),
    (s.i.toNat + x.val ≤ 0xFFF → ∃ t, exec (.ldMemVx x) s = .next t ∧
      (∀ k : Reg, k ≤ x → t.peek (s.i.toNat + k.val) = s.v[k]) ∧
      (∀ a : Nat, ¬ (s.i.toNat ≤ a ∧ a ≤ s.i.toNat + x.val) → t.peek a = s.peek a) ∧
      t.i.toNat = s.i.toNat + x.val + 1 ∧
      t.pc.toNat = (s.pc.toNat + 2) % 65536 ∧ t = { s with mem := t.mem, i := t.i, pc := t.pc }) ∧
    (0xFFF < s.i.toNat + x.val → exec (.ldMemVx x) s = .next (Reports s (.memoryBounds (max s.i.toNat 0x1000))))

/-- FX65 (43_index_memory.md, FX65): V0 to VX inclusive from `I` to `I + X`, the other registers as they were, `I` past the
block; above 0xFFF it reports and loads nothing (the spec's decisions D5, D22; `I` not masked is D8). -/
def Obligations.LoadBlockFillsTheRegisters : Prop :=
  EncodedAs 0xF0FF 0xF065 (fun w => .ldVxMem (fieldX w)) ∧
  ∀ (x : Reg) (s : State),
    (s.i.toNat + x.val ≤ 0xFFF → ∃ t, exec (.ldVxMem x) s = .next t ∧
      (∀ k : Reg, t.v[k] = if k ≤ x then s.peek (s.i.toNat + k.val) else s.v[k]) ∧
      t.i.toNat = s.i.toNat + x.val + 1 ∧
      t.pc.toNat = (s.pc.toNat + 2) % 65536 ∧ t = { s with v := t.v, i := t.i, pc := t.pc }) ∧
    (0xFFF < s.i.toNat + x.val → exec (.ldVxMem x) s = .next (Reports s (.memoryBounds (max s.i.toNat 0x1000))))

/-! ## Display -/

/-- 00E0 (44_display.md R131): every pixel off, `DIRTY` set even when they were off before, VF and everything else as it
was. -/
def Obligations.ClearScreenTurnsEveryPixelOff : Prop :=
  decodeWord 0x00E0 = .ok .cls ∧
  ∀ s : State, ∃ t, exec .cls s = .next t ∧
    (∀ (x : Fin 64) (y : Fin 32), t.fb[y][x] = false) ∧ t.dirty = true ∧
    t.pc.toNat = (s.pc.toNat + 2) % 65536 ∧ t = { s with fb := t.fb, dirty := t.dirty, pc := t.pc }

/-- DXYN (44_display.md, DXYN and the properties that follow from it): exactly the selected pixels are toggled, VF says
whether one of them was on, `DIRTY` is set on every execution, coordinates are read before VF is written (the spec's
decision D13), and nothing else changes. With N = 0 nothing is selected and no bound is checked. -/
def Obligations.DrawTogglesTheSelectedPixels : Prop :=
  EncodedAs 0xF000 0xD000 (fun w => .drw (fieldX w) (fieldY w) (fieldN w)) ∧
  ∀ (x y : Reg) (n : BitVec 4) (s : State), n.toNat = 0 ∨ s.i.toNat + n.toNat - 1 ≤ 0xFFF →
    ∃ t, exec (.drw x y n) s = .next t ∧
      (∀ px py, Selects s x y n px py → t.fb[py][px] = !s.fb[py][px]) ∧
      (∀ px py, ¬ Selects s x y n px py → t.fb[py][px] = s.fb[py][px]) ∧
      ((∃ px py, Selects s x y n px py ∧ s.fb[py][px] = true) → t.v[(15 : Reg)] = 1) ∧
      (¬ (∃ px py, Selects s x y n px py ∧ s.fb[py][px] = true) → t.v[(15 : Reg)] = 0) ∧
      (∀ r : Reg, r ≠ 15 → t.v[r] = s.v[r]) ∧ t.dirty = true ∧
      t.pc.toNat = (s.pc.toNat + 2) % 65536 ∧ t = { s with v := t.v, fb := t.fb, dirty := t.dirty, pc := t.pc }

/-- Drawing the same sprite twice at the same place restores every pixel, and the second VF says whether some selected pixel
was off before the first (44_display.md, properties of DXYN; 95_test_vectors.md E4). The place is the same when the first
draw's write of VF left both coordinate registers as they were. -/
def Obligations.DrawingTwiceRestoresTheFramebuffer : Prop :=
  ∀ (x y : Reg) (n : BitVec 4) (s t : State), n.toNat = 0 ∨ s.i.toNat + n.toNat - 1 ≤ 0xFFF →
    exec (.drw x y n) s = .next t → t.v[x] = s.v[x] → t.v[y] = s.v[y] →
    ∃ u, exec (.drw x y n) t = .next u ∧ u.fb = s.fb ∧
      ((∃ px py, Selects s x y n px py ∧ s.fb[py][px] = false) → u.v[(15 : Reg)] = 1) ∧
      (¬ (∃ px py, Selects s x y n px py ∧ s.fb[py][px] = false) → u.v[(15 : Reg)] = 0)

/-- DXYN whose last row lies above 0xFFF reports the lowest address out of range; framebuffer, VF and `DIRTY` stay (the
spec's decisions D5, D22). -/
def Obligations.DrawOutOfRangeReports : Prop :=
  ∀ (x y : Reg) (n : BitVec 4) (s : State), 0 < n.toNat → 0xFFF < s.i.toNat + n.toNat - 1 →
    exec (.drw x y n) s = .next (Reports s (.memoryBounds (max s.i.toNat 0x1000)))

/-! ## Keys and timers -/

/-- EX9E and EXA1 (45_keys_timers.md): skip when the key numbered by VX is pressed, respectively released; a number above 15
is no key and is reported (the spec's decision D18). -/
def Obligations.KeySkipsSampleTheLatch : Prop :=
  EncodedAs 0xF0FF 0xE09E (fun w => .skp (fieldX w)) ∧ EncodedAs 0xF0FF 0xE0A1 (fun w => .sknp (fieldX w)) ∧
  ∀ (x : Reg) (s : State),
    (∀ k : Key, (s.v[x]).toNat = k.val → ∃ t u, exec (.skp x) s = .next t ∧ exec (.sknp x) s = .next u ∧
      t.pc.toNat = (s.pc.toNat + (if s.keys[k] = true then 4 else 2)) % 65536 ∧
      u.pc.toNat = (s.pc.toNat + (if s.keys[k] = true then 2 else 4)) % 65536 ∧
      t = { s with pc := t.pc } ∧ u = { s with pc := u.pc }) ∧
    (15 < (s.v[x]).toNat → exec (.skp x) s = .next (Reports s (.keyIndexRange s.pc s.v[x])) ∧
      exec (.sknp x) s = .next (Reports s (.keyIndexRange s.pc s.v[x])))

/-- FX07 (45_keys_timers.md, FX07): VX gets the delay timer, which the execute phase does not change. That FX07 reads and
FX15 writes is what the spec marks as general knowledge (93_implementation_defined.md G3). -/
def Obligations.ReadDelayCopiesTheTimer : Prop :=
  EncodedAs 0xF0FF 0xF007 (fun w => .ldVxDt (fieldX w)) ∧
  ∀ (x : Reg) (s : State), ∃ t, exec (.ldVxDt x) s = .next t ∧
    (∀ r : Reg, t.v[r] = if r = x then s.dt else s.v[r]) ∧
    t.pc.toNat = (s.pc.toNat + 2) % 65536 ∧ t = { s with v := t.v, pc := t.pc }

/-- FX15 and FX18 (45_keys_timers.md): the timer gets VX, the other timer and the sound signal stay; the tick of the same step
is apart (the spec's decision D20; the direction is general knowledge, 93_implementation_defined.md G3). -/
def Obligations.SetTimersCopyTheRegister : Prop :=
  EncodedAs 0xF0FF 0xF015 (fun w => .ldDtVx (fieldX w)) ∧ EncodedAs 0xF0FF 0xF018 (fun w => .ldStVx (fieldX w)) ∧
  ∀ (x : Reg) (s : State),
    (∃ t, exec (.ldDtVx x) s = .next t ∧ t.dt = s.v[x] ∧
      t.pc.toNat = (s.pc.toNat + 2) % 65536 ∧ t = { s with dt := t.dt, pc := t.pc }) ∧
    (∃ t, exec (.ldStVx x) s = .next t ∧ t.st = s.v[x] ∧
      t.pc.toNat = (s.pc.toNat + 2) % 65536 ∧ t = { s with st := t.st, pc := t.pc })

/-- FX0A with no key pressed (45_keys_timers.md, FX0A): nothing changes, `pc` included, so it is executed again; it reports
nothing (the spec's decision D19). -/
def Obligations.KeyWaitHoldsThePc : Prop :=
  EncodedAs 0xF0FF 0xF00A (fun w => .ldVxK (fieldX w)) ∧
  ∀ (x : Reg) (s : State), (∀ k : Key, s.keys[k] = false) → exec (.ldVxK x) s = .next s

/-- FX0A with some key pressed (45_keys_timers.md, FX0A): in this step VX gets the number of a pressed key, and the only one
where there is one. Which of several is the free value behind KEY_SELECT (the spec's decision D19, log entry 3); the
statement holds for every value of it. -/
def Obligations.KeyWaitStoresAPressedKey : Prop :=
  ∀ (x : Reg) (s : State), (∃ k : Key, s.keys[k] = true) →
    ∃ (t : State) (k : Key), exec (.ldVxK x) s = .next t ∧ s.keys[k] = true ∧
      (∀ r : Reg, (t.v[r]).toNat = if r = x then k.val else (s.v[r]).toNat) ∧
      (∀ k' : Key, (∀ j : Key, s.keys[j] = true ↔ j = k') → k = k') ∧
      t.pc.toNat = (s.pc.toNat + 2) % 65536 ∧ t = { s with v := t.v, pc := t.pc }

/-! ## The step -/

/-- A step runs the instruction at `pc`: fetch, decode, the execute phase from no report, then the tick (40_step_cycle.md,
the step transaction; that the tick comes after is the spec's decision D20). -/
def Obligations.StepRunsTheDecodedInstruction : Prop :=
  ∀ (s : State) (i : Instr), s.pc.toNat ≤ 0xFFE →
    decode [s.peek s.pc.toNat, s.peek (s.pc.toNat + 1)] = .ok (i, []) →
    step s = tickAfter (exec i { s with report := none })

/-- Fetch is big-endian: the byte at `pc` is the high one (20_memory.md, byte order). -/
def Obligations.FetchIsBigEndian : Prop :=
  ∀ s : State, s.pc.toNat ≤ 0xFFE → ∃ w : Word, s.fetch = .ok w ∧
    w.toNat = (s.peek s.pc.toNat).toNat * 256 + (s.peek (s.pc.toNat + 1)).toNat

/-- A fetch that reaches above 0xFFF reports its first address out of range; no instruction is executed and only the tick
runs (the spec's decision D5). -/
def Obligations.FetchOutOfRangeReports : Prop :=
  ∀ s : State, 0xFFE < s.pc.toNat →
    step s = .next (Reports s.tick (.memoryBounds (if 0xFFF < s.pc.toNat then s.pc.toNat else 0x1000)))

/-- A word that is no instruction is reported with its address, `pc` stays, and only the tick runs (60_exceptions.md,
UnknownOpcode; not to advance is the spec's decision D11). -/
def Obligations.UnknownWordIsReported : Prop :=
  ∀ (s : State) (w : Word), s.pc.toNat ≤ 0xFFE →
    w.toNat = (s.peek s.pc.toNat).toNat * 256 + (s.peek (s.pc.toNat + 1)).toNat → recognised w = false →
    step s = .next (Reports s.tick (.unknownOpcode s.pc w))

/-- After a step that reports, the state differs from the one before it only by the tick (40_step_cycle.md, abort; the spec's
decisions D11, D22) and by the model's record of the report (log entry 4). -/
def Obligations.ReportingStepChangesOnlyTheTick : Prop :=
  ∀ (s t : State) (c : Report), step s = .next t → t.report = some c → t = Reports s.tick c

/-- A condition recurs for ever: after a step that reports, every number of further steps, with no transaction of the host
between, reports the same condition, and only timers and sound signal move (60_exceptions.md, entry and return; the spec's
decisions D11, D22). -/
def Obligations.ReportRecursForEver : Prop :=
  ∀ (s t : State) (c : Report) (n : Nat), step s = .next t → t.report = some c →
    ∃ u, Host.Core.run Sys2Proof.core n t = .next u ∧ u.report = some c ∧
      u = { t with dt := u.dt, st := u.st, soundActive := u.soundActive } ∧
      u.dt.toNat = t.dt.toNat - n ∧ u.st.toNat = t.st.toNat - n

/-- The machine never stops: every step from every state answers a next state (40_step_cycle.md, no halt). -/
def Obligations.EveryStepCompletes : Prop :=
  ∀ s : State, ∃ t, step s = .next t

/-- The latch tells runs without a report: from a state with no report latched, `n` steps report nothing exactly when nothing is
latched after them (60_exceptions.md, guidance for the model; log entry 4). -/
def Obligations.LatchTellsReportFreeRuns : Prop :=
  ∀ (n : Nat) (s : State), s.reported = false →
    (ReportFree n s ↔ ∃ t, Host.Core.run Sys2Proof.core n s = .next t ∧ t.reported = false)

/-- An instruction raises at most its own kind of condition, and a raise changes nothing else (60_exceptions.md, priority; the
spec's decision D22). -/
def Obligations.ConditionsBelongToTheirInstructions : Prop :=
  ∀ (i : Instr) (s t : State) (c : Report), s.report = none → exec i s = .next t → t.report = some c →
    MayRaise i c ∧ t = Reports s c

/-! ## The timer unit -/

/-- The tick (60_exceptions.md, the tick): each timer counts down to 0 and stays there, and the sound signal is up exactly
when this tick took `ST` from 1 to 0 (the spec's decisions D20, D21). -/
def Obligations.TickCountsDownToZero : Prop :=
  ∀ s : State, s.tick.dt.toNat = s.dt.toNat - 1 ∧ s.tick.st.toNat = s.st.toNat - 1 ∧
    (s.tick.soundActive = true ↔ s.st.toNat = 1) ∧
    s.tick = { s with dt := s.tick.dt, st := s.tick.st, soundActive := s.tick.soundActive }

/-- The timers never affect each other, and the sound signal depends on `ST` alone (60_exceptions.md R161). -/
def Obligations.TimersAreIndependent : Prop :=
  ∀ s s' : State, (s.dt = s'.dt → s.tick.dt = s'.tick.dt) ∧
    (s.st = s'.st → s.tick.st = s'.tick.st ∧ s.tick.soundActive = s'.tick.soundActive) ∧
    s.tick = { s with dt := s.tick.dt, st := s.tick.st, soundActive := s.tick.soundActive }

/-- A delay lasts steps: over `n` steps none of which executes FX15 the delay timer falls by `n`, to no less than 0, whatever
the instructions are and whether they complete, wait or report (70_reset_and_hazards.md, timer rate; the spec's decision
D20). -/
def Obligations.DelayTimerCountsSteps : Prop :=
  ∀ (n : Nat) (s : State), SetsNoDelay n s →
    ∃ t, Host.Core.run Sys2Proof.core n s = .next t ∧ t.dt.toNat = s.dt.toNat - n

/-- The sound signal over a whole step: with FX18 at `pc` it follows the value written, otherwise the sound timer; writing 1
raises it at the end of the same step, writing 0 does not (60_exceptions.md, the sound signal; the spec's decision D21). -/
def Obligations.SoundSignalMarksTheEndOfTheCountdown : Prop :=
  ∀ s t : State, step s = .next t →
    (∀ x : Reg, s.fetchInstr = .ok (.ldStVx x) →
      t.st.toNat = (s.v[x]).toNat - 1 ∧ (t.isSoundActive = true ↔ (s.v[x]).toNat = 1)) ∧
    ((∀ x : Reg, s.fetchInstr ≠ .ok (.ldStVx x)) →
      t.st.toNat = s.st.toNat - 1 ∧ (t.isSoundActive = true ↔ s.st.toNat = 1))

/-! ## The whole machine -/

/-- Which instruction may write which element (10_state.md, access matrix): registers, index, stack and its pointer, memory,
timers, framebuffer and dirty flag; and no instruction writes the key latch, the sound signal or the glyph parameter. -/
def Obligations.AccessMatrixBoundsEveryWrite : Prop :=
  ∀ (i : Instr) (s t : State), exec i s = .next t →
    (∀ r : Reg, t.v[r] ≠ s.v[r] → MayWriteV i r) ∧
    (t.i ≠ s.i → MayWriteIndex i) ∧
    (∀ a : Nat, t.peek a ≠ s.peek a → MayStoreAt s i a) ∧
    (t.stack ≠ s.stack → ∃ nnn, i = .call nnn) ∧
    (t.sp ≠ s.sp → i = .ret ∨ ∃ nnn, i = .call nnn) ∧
    (t.dt ≠ s.dt → ∃ x, i = .ldDtVx x) ∧
    (t.st ≠ s.st → ∃ x, i = .ldStVx x) ∧
    (t.fb ≠ s.fb → MayDraw i) ∧ (t.dirty ≠ s.dirty → MayDraw i) ∧
    t.keys = s.keys ∧ t.soundActive = s.soundActive ∧ t.font = s.font

/-- What no instruction reads (10_state.md: `SOUND_ACTIVE`, `DIRTY`, `ST`; 60_exceptions.md: the report is not stored in the
block): changing it before a step changes nothing else after it. -/
def Obligations.OutputsAreNeverRead : Prop :=
  (∀ (s : State) (b : Bool), step { s with soundActive := b } = step s) ∧
  (∀ (s : State) (b : Bool), ∃ (t : State) (b' : Bool), step s = .next t ∧
    step { s with dirty := b } = .next { t with dirty := b' }) ∧
  (∀ (s : State) (b : Byte), ∃ (t : State) (b' : Byte) (c' : Bool), step s = .next t ∧
    step { s with st := b } = .next { t with st := b', soundActive := c' }) ∧
  (∀ (s : State) (r : Option Report) (b : Bool), ∃ (t : State) (b' : Bool), step s = .next t ∧
    step { s with report := r, reported := b } = .next { t with reported := b' })

/-- Every step keeps the invariant: stack slots that are fetchable addresses (10_state.md, call stack; the spec's decision D9),
`pc` at most 0x10FE (10_state.md, program counter), the sound signal only at `ST = 0` (60_exceptions.md, the sound signal; D21),
and two clauses that are the model's own: memory in its canonical form (log entry 8) and reports latched (log entry 4). -/
def Obligations.StepKeepsTheInvariant : Prop :=
  ∀ s t : State, s.Inv → step s = .next t → t.Inv

/-- The state right after reset meets the invariant, its two clauses of the model's own among them: canonical memory (log
entry 8) and reports latched (log entry 4). -/
def Obligations.ResetMeetsTheInvariant : Prop :=
  State.reset.Inv

/-- Every transaction of the host, the step among them, keeps the invariant (00_scope.md, the transactions): stack slots that
are fetchable addresses (10_state.md, call stack; the spec's decision D9), `pc` at most 0x10FE (10_state.md, program counter),
the sound signal only at `ST = 0` (60_exceptions.md, the sound signal; D21), and two clauses that are the model's own: memory in
its canonical form (log entry 8) and reports latched (log entry 4). A load stores inside memory, reset puts every element at its
reset value, and the other transactions touch none of these. -/
def Obligations.TransactionsKeepTheInvariant : Prop :=
  ∀ (tr : Transaction) (s u : State) (a : Answer), s.Inv → perform tr s = .next (u, a) → u.Inv

/-! ## The host's transactions -/

/-- `reset()` (70_reset_and_hazards.md, reset): every element at its reset value, from any state; and the constant
`State.reset` is such a state. That `DIRTY` is true and `SOUND_ACTIVE` false is the spec's decision D3; that construction
resets is D2. The glyph parameter and the count of draws are not elements of the machine (log entries 1, 2). -/
def Obligations.ResetSetsEveryElement : Prop :=
  State.reset.resetAll = State.reset ∧
  (∀ s s' : State, s.font = s'.font → { s.resetAll with draws := 0 } = { s'.resetAll with draws := 0 }) ∧
  ∀ s : State, ∃ t, perform .reset s = .next (t, .done) ∧
    (∀ a : Fin 80, t.peek a.val = s.font[a]) ∧ (∀ a : Nat, 80 ≤ a → t.peek a = 0) ∧
    (∀ r : Reg, t.v[r] = 0) ∧ t.i = 0 ∧ t.pc = 0x200 ∧ (∀ k : Fin 16, t.stack[k] = 0) ∧ t.sp = 0 ∧
    t.dt = 0 ∧ t.st = 0 ∧ t.soundActive = false ∧ (∀ k : Key, t.keys[k] = false) ∧
    (∀ (x : Fin 64) (y : Fin 32), t.fb[y][x] = false) ∧ t.dirty = true

/-- `load` of at most 3584 bytes (70_reset_and_hazards.md, load): they stand from 0x200 on, every other byte and everything
else is as it was (the spec's decision D23). -/
def Obligations.LoadCopiesTheRom : Prop :=
  ∀ (s : State) (rom : List Byte), rom.length ≤ 3584 → ∃ t, perform (.load rom) s = .next (t, .report none) ∧
    (∀ j : Nat, j < rom.length → t.peek (0x200 + j) = rom.getD j 0) ∧
    (∀ a : Nat, ¬ (0x200 ≤ a ∧ a < 0x200 + rom.length) → t.peek a = s.peek a) ∧ t = { s with mem := t.mem }

/-- `load` of more than 3584 bytes returns `LoadOverflow` with the length and changes nothing (60_exceptions.md R156). -/
def Obligations.OversizedRomIsRejected : Prop :=
  ∀ (s : State) (rom : List Byte), 3584 < rom.length →
    perform (.load rom) s = .next (s, .report (some (.loadOverflow rom.length)))

/-- The launch state (70_reset_and_hazards.md, launch state): after `reset` and a `load` that returned `ok`. `DIRTY` and
`SOUND_ACTIVE` are the spec's decision D3. -/
def Obligations.LaunchStateHoldsTheRom : Prop :=
  ∀ (s : State) (rom : List Byte), rom.length ≤ 3584 → ∃ t, performAll [.reset, .load rom] s = .next t ∧
    (∀ a : Fin 80, t.peek a.val = s.font[a]) ∧
    (∀ j : Nat, j < rom.length → t.peek (0x200 + j) = rom.getD j 0) ∧
    (∀ a : Nat, 80 ≤ a → ¬ (0x200 ≤ a ∧ a < 0x200 + rom.length) → t.peek a = 0) ∧
    (∀ r : Reg, t.v[r] = 0) ∧ t.i = 0 ∧ t.pc = 0x200 ∧ (∀ k : Fin 16, t.stack[k] = 0) ∧ t.sp = 0 ∧
    t.dt = 0 ∧ t.st = 0 ∧ t.soundActive = false ∧ (∀ k : Key, t.keys[k] = false) ∧
    (∀ (x : Fin 64) (y : Fin 32), t.fb[y][x] = false) ∧ t.dirty = true

/-- `setKey` (60_exceptions.md, host interface): an index 0..15 writes that key and nothing else; any other index returns
`KeyIndexError` and changes nothing (the spec's decision D24). -/
def Obligations.SetKeyWritesOneKey : Prop :=
  ∀ (s : State) (index : Int) (pressed : Bool),
    (0 ≤ index ∧ index ≤ 15 → ∃ t, perform (.setKey index pressed) s = .next (t, .report none) ∧
      (∀ k : Key, t.keys[k] = if (k.val : Int) = index then pressed else s.keys[k]) ∧ t = { s with keys := t.keys }) ∧
    (¬ (0 ≤ index ∧ index ≤ 15) →
      perform (.setKey index pressed) s = .next (s, .report (some (.keyIndexError index))))

/-- `readFramebuffer`, `readDirty` and `clearDirty` (60_exceptions.md R167, R168): the 2048 pixels row-major, with nothing
changed; the flag; the flag cleared and nothing else changed. The host cannot write pixels, and `clearDirty` is the only
transaction that clears the flag. -/
def Obligations.HostReadsAndClearsTheDisplay : Prop :=
  (∀ s : State, ∃ ps : List Bool, perform .readFramebuffer s = .next (s, .pixels ps) ∧ ps.length = 2048 ∧
    ∀ (x : Fin 64) (y : Fin 32), ps[y.val * 64 + x.val]? = some s.fb[y][x]) ∧
  (∀ s : State, perform .readDirty s = .next (s, .bool s.dirty) ∧
    perform .clearDirty s = .next ({ s with dirty := false }, .done)) ∧
  (∀ (tr : Transaction) (s u : State) (a : Answer), perform tr s = .next (u, a) →
    (tr ≠ .reset → tr ≠ .step → u.fb = s.fb) ∧ (tr ≠ .clearDirty → s.dirty = true → u.dirty = true))

/-! ## Encoding -/

/-- Decoding the word of an instruction gives it back, with every operand at every value; and so from its bytes in memory,
whatever follows them (30_encoding.md, formats and opcode map). -/
def Obligations.DecodeInvertsEncode : Prop :=
  ∀ i : Instr, decodeWord (encode i) = .ok i ∧
    ∀ rest : List Byte, decode (encodeBytes i ++ rest) = .ok (i, rest)

/-- A word has one meaning and a meaning one word: encoding what a word decodes to gives the word, the ignored Y field of the
shifts included (30_encoding.md, opcode map). -/
def Obligations.EncodeInvertsDecode : Prop :=
  ∀ (w : Word) (i : Instr), decodeWord w = .ok i → encode i = w

/-- The decoder and the table of masks and matches agree on every word: a word decodes to an instruction exactly when it
matches a row, and then the instruction is the row's; otherwise it is rejected by name (30_encoding.md, decoding; that every
fixed digit is compared is the spec's decision D12). -/
def Obligations.DecoderFollowsTheOpcodeMap : Prop :=
  ∀ w : Word, (∀ i : Instr, decodeWord w = .ok i → i.row.matches w = true ∧ recognised w = true) ∧
    (∀ r ∈ opcodeTable, r.matches w = true → ∃ i : Instr, decodeWord w = .ok i ∧ i.row = r) ∧
    (recognised w = false → decodeWord w = .error (.unknownOpcode w))

/-- The rows are pairwise disjoint: no word matches two (30_encoding.md, decoding). -/
def Obligations.OpcodeRowsAreDisjoint : Prop :=
  opcodeTable.length = 34 ∧
  ∀ (w : Word) (r r' : Row), r ∈ opcodeTable → r' ∈ opcodeTable → r.matches w = true → r'.matches w = true → r = r'

/-- The unrecognised words, family by family (30_encoding.md, reserved and unrecognised encodings; the spec's decision
D12). -/
def Obligations.UnrecognisedWordsByFamily : Prop :=
  ∀ w : Word, decodeWord w = .error (.unknownOpcode w) ↔
    (w.toNat / 4096 = 0 ∧ w.toNat ≠ 0x00E0 ∧ w.toNat ≠ 0x00EE) ∨
    (w.toNat / 4096 = 5 ∧ w.toNat % 16 ≠ 0) ∨
    (w.toNat / 4096 = 8 ∧ w.toNat % 16 ∈ [8, 9, 10, 11, 12, 13, 15]) ∨
    (w.toNat / 4096 = 9 ∧ w.toNat % 16 ≠ 0) ∨
    (w.toNat / 4096 = 14 ∧ w.toNat % 256 ∉ [0x9E, 0xA1]) ∨
    (w.toNat / 4096 = 15 ∧ w.toNat % 256 ∉ [0x07, 0x0A, 0x15, 0x18, 0x1E, 0x29, 0x33, 0x55, 0x65])

/-- Words of the spec, one or more of each of the sixteen families (the high nibble), decode to what they stand for, and two
words are rejected. From 95_test_vectors.md: section 1 gives 0x600A (E8); section 2 gives 0x1ABC (F1), 0x4342 (F13), 0x5120
(F15), 0x9120 (F18), 0xB300 (F21), 0x7203 (A1), 0x8236 (A16), 0xC30F (A35), 0xA2F0 (M1), 0xF265 (M28), 0xE59E (K1), 0xD011 (D1),
0x00E0 (D12), 0x00EE (F7), 0x5121 (U5) and 0x0000 (U1); section 3 gives 0x220A (P2). 0x332A is the example of 3XNN in 41_flow.md.
0xD015 is no example of the spec: it is written from the format of DXYN in 30_encoding.md. That 0x5121 is rejected is the spec's
decision D12; that the low nibble 6 of 0x8236 is SHR is its general knowledge G2. -/
def Obligations.ExampleWordsDecode : Prop :=
  decodeWord 0x00E0 = .ok .cls ∧ decodeWord 0x00EE = .ok .ret ∧ decodeWord 0x1ABC = .ok (.jp 0xABC) ∧
  decodeWord 0x220A = .ok (.call 0x20A) ∧ decodeWord 0x332A = .ok (.seImm 3 0x2A) ∧
  decodeWord 0x600A = .ok (.ldImm 0 0x0A) ∧ decodeWord 0x8236 = .ok (.shr 2 3) ∧ decodeWord 0xA2F0 = .ok (.ldI 0x2F0) ∧
  decodeWord 0xD015 = .ok (.drw 0 1 5) ∧ decodeWord 0xE59E = .ok (.skp 5) ∧ decodeWord 0xF265 = .ok (.ldVxMem 2) ∧
  decodeWord 0x4342 = .ok (.sneImm 3 0x42) ∧ decodeWord 0x5120 = .ok (.seReg 1 2) ∧
  decodeWord 0x7203 = .ok (.addImm 2 0x03) ∧ decodeWord 0x9120 = .ok (.sneReg 1 2) ∧
  decodeWord 0xB300 = .ok (.jpV0 0x300) ∧ decodeWord 0xC30F = .ok (.rnd 3 0x0F) ∧ decodeWord 0xD011 = .ok (.drw 0 1 1) ∧
  decodeWord 0x5121 = .error (.unknownOpcode 0x5121) ∧ decodeWord 0x0000 = .error (.unknownOpcode 0x0000)

/-- An instruction whose word is stored at `pc` is what the very next step executes, with nothing needed between
(20_memory.md, instruction-fetch coherence), and the word read as the opcode table numbers its bits is that instruction.
Storing stands for a load from outside (log entry 6). -/
def Obligations.StoredInstructionIsExecutedNext : Prop :=
  ∀ (s : State) (i : Instr),
    decodeTableWord 16 (encode i).toNat = some i ∧
    step (s.withFetchWord 16 (encode i).toNat) =
      tickAfter (exec i { s.withFetchWord 16 (encode i).toNat with report := none }) ∧
    (∀ (t : State), s.pc.toNat ≤ 0xFFE → s.writeBlock s.pc.toNat (encodeBytes i) = .ok t →
      step t = tickAfter (exec i { t with report := none }))
end

