-- ==== Sys2Proof/Laws/Decode.lean ====
section
/-! SUPPORT. The fields of a word as numbers, and the words the encoder makes as numbers: with these, a question about bits is
one about quotients and remainders. -/

namespace Sys2Proof

theorem toNat_append {m n : Nat} (a : BitVec m) (b : BitVec n) : (a ++ b).toNat = a.toNat * 2 ^ n + b.toNat := by
  rw [BitVec.toNat_append, Nat.shiftLeft_eq, Nat.mul_comm, ← Nat.two_pow_add_eq_or_of_lt b.isLt]

theorem wordNNN_toNat (op : BitVec 4) (nnn : BitVec 12) :
    (wordNNN op nnn).toNat = op.toNat * 4096 + nnn.toNat := by
  have h : (wordNNN op nnn).toNat = op.toNat * 2 ^ 12 + nnn.toNat := toNat_append op nnn
  simpa only [Nat.reducePow] using h

theorem wordXNN_toNat (op : BitVec 4) (x : Reg) (nn : Byte) :
    (wordXNN op x nn).toNat = op.toNat * 4096 + x.val * 256 + nn.toNat := by
  have h : (wordXNN op x nn).toNat = (op.toNat * 2 ^ 4 + x.val) * 2 ^ 8 + nn.toNat :=
    (toNat_append _ nn).trans (by rw [toNat_append]; rfl)
  rw [h]
  ring

theorem wordXYN_toNat (op : BitVec 4) (x y : Reg) (n : BitVec 4) :
    (wordXYN op x y n).toNat = op.toNat * 4096 + x.val * 256 + y.val * 16 + n.toNat := by
  have h : (wordXYN op x y n).toNat = ((op.toNat * 2 ^ 4 + x.val) * 2 ^ 4 + y.val) * 2 ^ 4 + n.toNat :=
    (toNat_append _ n).trans (by rw [toNat_append, toNat_append]; rfl)
  rw [h]
  ring

theorem opField_toNat (w : Word) : (opField w).toNat = w.toNat / 4096 := by
  have := w.isLt
  simp [opField, BitVec.extractLsb'_toNat, Nat.shiftRight_eq_div_pow]
  omega

theorem xField_val (w : Word) : (xField w).val = w.toNat / 256 % 16 := by
  simp [xField, Nat.shiftRight_eq_div_pow]

theorem yField_val (w : Word) : (yField w).val = w.toNat / 16 % 16 := by
  simp [yField, Nat.shiftRight_eq_div_pow]

theorem nField_toNat (w : Word) : (nField w).toNat = w.toNat % 16 := by
  simp [nField, BitVec.extractLsb'_toNat]

theorem nnField_toNat (w : Word) : (nnField w).toNat = w.toNat % 256 := by
  simp [nnField, BitVec.extractLsb'_toNat]

theorem nnnField_toNat (w : Word) : (nnnField w).toNat = w.toNat % 4096 := by
  simp [nnnField, BitVec.extractLsb'_toNat]

/-- A word numbered as the opcode table numbers its bits is the word itself. -/
@[simp] theorem tableWord_toNat (w : Word) : tableWord 16 w.toNat = w := by
  apply BitVec.eq_of_toNat_eq
  simp [tableWord, Nat.mod_eq_of_lt w.isLt]

/-- A word is put together again from the fields of format NNN. -/
theorem wordNNN_fields (w : Word) : wordNNN (opField w) (nnnField w) = w := by
  apply BitVec.eq_of_toNat_eq
  rw [wordNNN_toNat, opField_toNat, nnnField_toNat]; omega

/-- A word is put together again from the fields of format XNN. -/
theorem wordXNN_fields (w : Word) : wordXNN (opField w) (xField w) (nnField w) = w := by
  apply BitVec.eq_of_toNat_eq
  rw [wordXNN_toNat, opField_toNat, xField_val, nnField_toNat]; omega

/-- A word is put together again from the fields of format XYN. -/
theorem wordXYN_fields (w : Word) : wordXYN (opField w) (xField w) (yField w) (nField w) = w := by
  apply BitVec.eq_of_toNat_eq
  rw [wordXYN_toNat, opField_toNat, xField_val, yField_val, nField_toNat]; omega

/-! ## The fields of the words the encoder makes -/

@[simp] theorem opField_wordNNN (op : BitVec 4) (nnn : BitVec 12) : opField (wordNNN op nnn) = op := by
  apply BitVec.eq_of_toNat_eq
  rw [opField_toNat, wordNNN_toNat]; omega

@[simp] theorem nnnField_wordNNN (op : BitVec 4) (nnn : BitVec 12) : nnnField (wordNNN op nnn) = nnn := by
  apply BitVec.eq_of_toNat_eq
  rw [nnnField_toNat, wordNNN_toNat]; omega

@[simp] theorem opField_wordXNN (op : BitVec 4) (x : Reg) (nn : Byte) : opField (wordXNN op x nn) = op := by
  apply BitVec.eq_of_toNat_eq
  rw [opField_toNat, wordXNN_toNat]; omega

@[simp] theorem xField_wordXNN (op : BitVec 4) (x : Reg) (nn : Byte) : xField (wordXNN op x nn) = x := by
  apply Fin.ext
  rw [xField_val, wordXNN_toNat]; omega

@[simp] theorem nnField_wordXNN (op : BitVec 4) (x : Reg) (nn : Byte) : nnField (wordXNN op x nn) = nn := by
  apply BitVec.eq_of_toNat_eq
  rw [nnField_toNat, wordXNN_toNat]; omega

@[simp] theorem opField_wordXYN (op : BitVec 4) (x y : Reg) (n : BitVec 4) : opField (wordXYN op x y n) = op := by
  apply BitVec.eq_of_toNat_eq
  rw [opField_toNat, wordXYN_toNat]; omega

@[simp] theorem xField_wordXYN (op : BitVec 4) (x y : Reg) (n : BitVec 4) : xField (wordXYN op x y n) = x := by
  apply Fin.ext
  rw [xField_val, wordXYN_toNat]; omega

@[simp] theorem yField_wordXYN (op : BitVec 4) (x y : Reg) (n : BitVec 4) : yField (wordXYN op x y n) = y := by
  apply Fin.ext
  rw [yField_val, wordXYN_toNat]; omega

@[simp] theorem nField_wordXYN (op : BitVec 4) (x y : Reg) (n : BitVec 4) : nField (wordXYN op x y n) = n := by
  apply BitVec.eq_of_toNat_eq
  rw [nField_toNat, wordXYN_toNat]; omega

/-! ## Words under the masks of the opcode map -/

theorem wordNNN_mask (op : BitVec 4) (nnn : BitVec 12) : wordNNN op nnn &&& 0xF000#16 = op ++ 0#12 := by
  show (op ++ nnn) &&& (0xF#4 ++ 0#12) = _
  rw [BitVec.and_append, BitVec.and_zero, show (0xF#4) = BitVec.allOnes 4 from rfl, BitVec.and_allOnes]

theorem wordXNN_mask (op : BitVec 4) (x : Reg) (nn : Byte) : wordXNN op x nn &&& 0xF000#16 = op ++ 0#12 := by
  show (op ++ (BitVec.ofFin x : BitVec 4) ++ nn) &&& (0xF#4 ++ 0#4 ++ 0#8) = _
  rw [BitVec.and_append, BitVec.and_append, BitVec.and_zero, BitVec.and_zero,
    show (0xF#4) = BitVec.allOnes 4 from rfl, BitVec.and_allOnes]
  revert op; decide

theorem wordXNN_maskX (op : BitVec 4) (x : Reg) (nn : Byte) :
    wordXNN op x nn &&& 0xF0FF#16 = op ++ 0#4 ++ nn := by
  show (op ++ (BitVec.ofFin x : BitVec 4) ++ nn) &&& (0xF#4 ++ 0#4 ++ 0xFF#8) = _
  rw [BitVec.and_append, BitVec.and_append, BitVec.and_zero, show (0xF#4) = BitVec.allOnes 4 from rfl,
    show (0xFF#8) = BitVec.allOnes 8 from rfl, BitVec.and_allOnes, BitVec.and_allOnes]

theorem wordXYN_mask (op : BitVec 4) (x y : Reg) (n : BitVec 4) :
    wordXYN op x y n &&& 0xF00F#16 = op ++ 0#4 ++ 0#4 ++ n := by
  show (op ++ (BitVec.ofFin x : BitVec 4) ++ (BitVec.ofFin y : BitVec 4) ++ n : Word) &&&
    (0xF#4 ++ 0#4 ++ 0#4 ++ 0xF#4 : Word) = _
  rw [BitVec.and_append, BitVec.and_append, BitVec.and_append, BitVec.and_zero, BitVec.and_zero,
    show (0xF#4) = BitVec.allOnes 4 from rfl, BitVec.and_allOnes, BitVec.and_allOnes]

theorem wordXYN_maskOp (op : BitVec 4) (x y : Reg) (n : BitVec 4) :
    wordXYN op x y n &&& 0xF000#16 = op ++ 0#12 := by
  show (op ++ (BitVec.ofFin x : BitVec 4) ++ (BitVec.ofFin y : BitVec 4) ++ n : Word) &&&
    (0xF#4 ++ 0#4 ++ 0#4 ++ 0#4 : Word) = _
  rw [BitVec.and_append, BitVec.and_append, BitVec.and_append, BitVec.and_zero, BitVec.and_zero, BitVec.and_zero,
    show (0xF#4) = BitVec.allOnes 4 from rfl, BitVec.and_allOnes]
  revert op; decide

end Sys2Proof
end

