-- ==== Sys2Proof/Laws/State.lean ====
section
/-! SUPPORT. One lemma per field per update of State: what the field is after the update. -/

namespace Sys2Proof.Machine

@[simp] theorem State.setPc_mem (s : State) (w : Word) : (s.setPc w).mem = s.mem := rfl
@[simp] theorem State.setPc_v (s : State) (w : Word) : (s.setPc w).v = s.v := rfl
@[simp] theorem State.setPc_i (s : State) (w : Word) : (s.setPc w).i = s.i := rfl
@[simp] theorem State.setPc_pc (s : State) (w : Word) : (s.setPc w).pc = w := rfl
@[simp] theorem State.setPc_stack (s : State) (w : Word) : (s.setPc w).stack = s.stack := rfl
@[simp] theorem State.setPc_sp (s : State) (w : Word) : (s.setPc w).sp = s.sp := rfl
@[simp] theorem State.setPc_dt (s : State) (w : Word) : (s.setPc w).dt = s.dt := rfl
@[simp] theorem State.setPc_st (s : State) (w : Word) : (s.setPc w).st = s.st := rfl
@[simp] theorem State.setPc_soundActive (s : State) (w : Word) : (s.setPc w).soundActive = s.soundActive := rfl
@[simp] theorem State.setPc_keys (s : State) (w : Word) : (s.setPc w).keys = s.keys := rfl
@[simp] theorem State.setPc_fb (s : State) (w : Word) : (s.setPc w).fb = s.fb := rfl
@[simp] theorem State.setPc_dirty (s : State) (w : Word) : (s.setPc w).dirty = s.dirty := rfl
@[simp] theorem State.setPc_font (s : State) (w : Word) : (s.setPc w).font = s.font := rfl
@[simp] theorem State.setPc_draws (s : State) (w : Word) : (s.setPc w).draws = s.draws := rfl
@[simp] theorem State.setPc_report (s : State) (w : Word) : (s.setPc w).report = s.report := rfl
@[simp] theorem State.setPc_reported (s : State) (w : Word) : (s.setPc w).reported = s.reported := rfl

@[simp] theorem State.advance_mem (s : State) : (s.advance).mem = s.mem := rfl
@[simp] theorem State.advance_v (s : State) : (s.advance).v = s.v := rfl
@[simp] theorem State.advance_i (s : State) : (s.advance).i = s.i := rfl
@[simp] theorem State.advance_pc (s : State) : (s.advance).pc = s.pc + 2 := rfl
@[simp] theorem State.advance_stack (s : State) : (s.advance).stack = s.stack := rfl
@[simp] theorem State.advance_sp (s : State) : (s.advance).sp = s.sp := rfl
@[simp] theorem State.advance_dt (s : State) : (s.advance).dt = s.dt := rfl
@[simp] theorem State.advance_st (s : State) : (s.advance).st = s.st := rfl
@[simp] theorem State.advance_soundActive (s : State) : (s.advance).soundActive = s.soundActive := rfl
@[simp] theorem State.advance_keys (s : State) : (s.advance).keys = s.keys := rfl
@[simp] theorem State.advance_fb (s : State) : (s.advance).fb = s.fb := rfl
@[simp] theorem State.advance_dirty (s : State) : (s.advance).dirty = s.dirty := rfl
@[simp] theorem State.advance_font (s : State) : (s.advance).font = s.font := rfl
@[simp] theorem State.advance_draws (s : State) : (s.advance).draws = s.draws := rfl
@[simp] theorem State.advance_report (s : State) : (s.advance).report = s.report := rfl
@[simp] theorem State.advance_reported (s : State) : (s.advance).reported = s.reported := rfl

@[simp] theorem State.skipIf_mem (s : State) (c : Bool) : (s.skipIf c).mem = s.mem := rfl
@[simp] theorem State.skipIf_v (s : State) (c : Bool) : (s.skipIf c).v = s.v := rfl
@[simp] theorem State.skipIf_i (s : State) (c : Bool) : (s.skipIf c).i = s.i := rfl
@[simp] theorem State.skipIf_pc (s : State) (c : Bool) : (s.skipIf c).pc = if c then s.pc + 4 else s.pc + 2 := rfl
@[simp] theorem State.skipIf_stack (s : State) (c : Bool) : (s.skipIf c).stack = s.stack := rfl
@[simp] theorem State.skipIf_sp (s : State) (c : Bool) : (s.skipIf c).sp = s.sp := rfl
@[simp] theorem State.skipIf_dt (s : State) (c : Bool) : (s.skipIf c).dt = s.dt := rfl
@[simp] theorem State.skipIf_st (s : State) (c : Bool) : (s.skipIf c).st = s.st := rfl
@[simp] theorem State.skipIf_soundActive (s : State) (c : Bool) : (s.skipIf c).soundActive = s.soundActive := rfl
@[simp] theorem State.skipIf_keys (s : State) (c : Bool) : (s.skipIf c).keys = s.keys := rfl
@[simp] theorem State.skipIf_fb (s : State) (c : Bool) : (s.skipIf c).fb = s.fb := rfl
@[simp] theorem State.skipIf_dirty (s : State) (c : Bool) : (s.skipIf c).dirty = s.dirty := rfl
@[simp] theorem State.skipIf_font (s : State) (c : Bool) : (s.skipIf c).font = s.font := rfl
@[simp] theorem State.skipIf_draws (s : State) (c : Bool) : (s.skipIf c).draws = s.draws := rfl
@[simp] theorem State.skipIf_report (s : State) (c : Bool) : (s.skipIf c).report = s.report := rfl
@[simp] theorem State.skipIf_reported (s : State) (c : Bool) : (s.skipIf c).reported = s.reported := rfl

@[simp] theorem State.setV_mem (s : State) (r : Reg) (b : Byte) : (s.setV r b).mem = s.mem := rfl
@[simp] theorem State.setV_v (s : State) (r : Reg) (b : Byte) : (s.setV r b).v = s.v.set r b := rfl
@[simp] theorem State.setV_i (s : State) (r : Reg) (b : Byte) : (s.setV r b).i = s.i := rfl
@[simp] theorem State.setV_pc (s : State) (r : Reg) (b : Byte) : (s.setV r b).pc = s.pc := rfl
@[simp] theorem State.setV_stack (s : State) (r : Reg) (b : Byte) : (s.setV r b).stack = s.stack := rfl
@[simp] theorem State.setV_sp (s : State) (r : Reg) (b : Byte) : (s.setV r b).sp = s.sp := rfl
@[simp] theorem State.setV_dt (s : State) (r : Reg) (b : Byte) : (s.setV r b).dt = s.dt := rfl
@[simp] theorem State.setV_st (s : State) (r : Reg) (b : Byte) : (s.setV r b).st = s.st := rfl
@[simp] theorem State.setV_soundActive (s : State) (r : Reg) (b : Byte) : (s.setV r b).soundActive = s.soundActive := rfl
@[simp] theorem State.setV_keys (s : State) (r : Reg) (b : Byte) : (s.setV r b).keys = s.keys := rfl
@[simp] theorem State.setV_fb (s : State) (r : Reg) (b : Byte) : (s.setV r b).fb = s.fb := rfl
@[simp] theorem State.setV_dirty (s : State) (r : Reg) (b : Byte) : (s.setV r b).dirty = s.dirty := rfl
@[simp] theorem State.setV_font (s : State) (r : Reg) (b : Byte) : (s.setV r b).font = s.font := rfl
@[simp] theorem State.setV_draws (s : State) (r : Reg) (b : Byte) : (s.setV r b).draws = s.draws := rfl
@[simp] theorem State.setV_report (s : State) (r : Reg) (b : Byte) : (s.setV r b).report = s.report := rfl
@[simp] theorem State.setV_reported (s : State) (r : Reg) (b : Byte) : (s.setV r b).reported = s.reported := rfl

@[simp] theorem State.setFlag_mem (s : State) (c : Bool) : (s.setFlag c).mem = s.mem := rfl
@[simp] theorem State.setFlag_v (s : State) (c : Bool) : (s.setFlag c).v = s.v.set vf (flagByte c) := rfl
@[simp] theorem State.setFlag_i (s : State) (c : Bool) : (s.setFlag c).i = s.i := rfl
@[simp] theorem State.setFlag_pc (s : State) (c : Bool) : (s.setFlag c).pc = s.pc := rfl
@[simp] theorem State.setFlag_stack (s : State) (c : Bool) : (s.setFlag c).stack = s.stack := rfl
@[simp] theorem State.setFlag_sp (s : State) (c : Bool) : (s.setFlag c).sp = s.sp := rfl
@[simp] theorem State.setFlag_dt (s : State) (c : Bool) : (s.setFlag c).dt = s.dt := rfl
@[simp] theorem State.setFlag_st (s : State) (c : Bool) : (s.setFlag c).st = s.st := rfl
@[simp] theorem State.setFlag_soundActive (s : State) (c : Bool) : (s.setFlag c).soundActive = s.soundActive := rfl
@[simp] theorem State.setFlag_keys (s : State) (c : Bool) : (s.setFlag c).keys = s.keys := rfl
@[simp] theorem State.setFlag_fb (s : State) (c : Bool) : (s.setFlag c).fb = s.fb := rfl
@[simp] theorem State.setFlag_dirty (s : State) (c : Bool) : (s.setFlag c).dirty = s.dirty := rfl
@[simp] theorem State.setFlag_font (s : State) (c : Bool) : (s.setFlag c).font = s.font := rfl
@[simp] theorem State.setFlag_draws (s : State) (c : Bool) : (s.setFlag c).draws = s.draws := rfl
@[simp] theorem State.setFlag_report (s : State) (c : Bool) : (s.setFlag c).report = s.report := rfl
@[simp] theorem State.setFlag_reported (s : State) (c : Bool) : (s.setFlag c).reported = s.reported := rfl

@[simp] theorem State.setFirstRegs_mem (s : State) (bs : List Byte) : (s.setFirstRegs bs).mem = s.mem := rfl
@[simp] theorem State.setFirstRegs_v (s : State) (bs : List Byte) : (s.setFirstRegs bs).v = loadRegs 0 bs s.v := rfl
@[simp] theorem State.setFirstRegs_i (s : State) (bs : List Byte) : (s.setFirstRegs bs).i = s.i := rfl
@[simp] theorem State.setFirstRegs_pc (s : State) (bs : List Byte) : (s.setFirstRegs bs).pc = s.pc := rfl
@[simp] theorem State.setFirstRegs_stack (s : State) (bs : List Byte) : (s.setFirstRegs bs).stack = s.stack := rfl
@[simp] theorem State.setFirstRegs_sp (s : State) (bs : List Byte) : (s.setFirstRegs bs).sp = s.sp := rfl
@[simp] theorem State.setFirstRegs_dt (s : State) (bs : List Byte) : (s.setFirstRegs bs).dt = s.dt := rfl
@[simp] theorem State.setFirstRegs_st (s : State) (bs : List Byte) : (s.setFirstRegs bs).st = s.st := rfl
@[simp] theorem State.setFirstRegs_soundActive (s : State) (bs : List Byte) : (s.setFirstRegs bs).soundActive = s.soundActive := rfl
@[simp] theorem State.setFirstRegs_keys (s : State) (bs : List Byte) : (s.setFirstRegs bs).keys = s.keys := rfl
@[simp] theorem State.setFirstRegs_fb (s : State) (bs : List Byte) : (s.setFirstRegs bs).fb = s.fb := rfl
@[simp] theorem State.setFirstRegs_dirty (s : State) (bs : List Byte) : (s.setFirstRegs bs).dirty = s.dirty := rfl
@[simp] theorem State.setFirstRegs_font (s : State) (bs : List Byte) : (s.setFirstRegs bs).font = s.font := rfl
@[simp] theorem State.setFirstRegs_draws (s : State) (bs : List Byte) : (s.setFirstRegs bs).draws = s.draws := rfl
@[simp] theorem State.setFirstRegs_report (s : State) (bs : List Byte) : (s.setFirstRegs bs).report = s.report := rfl
@[simp] theorem State.setFirstRegs_reported (s : State) (bs : List Byte) : (s.setFirstRegs bs).reported = s.reported := rfl

@[simp] theorem State.setI_mem (s : State) (w : Word) : (s.setI w).mem = s.mem := rfl
@[simp] theorem State.setI_v (s : State) (w : Word) : (s.setI w).v = s.v := rfl
@[simp] theorem State.setI_i (s : State) (w : Word) : (s.setI w).i = w := rfl
@[simp] theorem State.setI_pc (s : State) (w : Word) : (s.setI w).pc = s.pc := rfl
@[simp] theorem State.setI_stack (s : State) (w : Word) : (s.setI w).stack = s.stack := rfl
@[simp] theorem State.setI_sp (s : State) (w : Word) : (s.setI w).sp = s.sp := rfl
@[simp] theorem State.setI_dt (s : State) (w : Word) : (s.setI w).dt = s.dt := rfl
@[simp] theorem State.setI_st (s : State) (w : Word) : (s.setI w).st = s.st := rfl
@[simp] theorem State.setI_soundActive (s : State) (w : Word) : (s.setI w).soundActive = s.soundActive := rfl
@[simp] theorem State.setI_keys (s : State) (w : Word) : (s.setI w).keys = s.keys := rfl
@[simp] theorem State.setI_fb (s : State) (w : Word) : (s.setI w).fb = s.fb := rfl
@[simp] theorem State.setI_dirty (s : State) (w : Word) : (s.setI w).dirty = s.dirty := rfl
@[simp] theorem State.setI_font (s : State) (w : Word) : (s.setI w).font = s.font := rfl
@[simp] theorem State.setI_draws (s : State) (w : Word) : (s.setI w).draws = s.draws := rfl
@[simp] theorem State.setI_report (s : State) (w : Word) : (s.setI w).report = s.report := rfl
@[simp] theorem State.setI_reported (s : State) (w : Word) : (s.setI w).reported = s.reported := rfl

@[simp] theorem State.setDt_mem (s : State) (b : Byte) : (s.setDt b).mem = s.mem := rfl
@[simp] theorem State.setDt_v (s : State) (b : Byte) : (s.setDt b).v = s.v := rfl
@[simp] theorem State.setDt_i (s : State) (b : Byte) : (s.setDt b).i = s.i := rfl
@[simp] theorem State.setDt_pc (s : State) (b : Byte) : (s.setDt b).pc = s.pc := rfl
@[simp] theorem State.setDt_stack (s : State) (b : Byte) : (s.setDt b).stack = s.stack := rfl
@[simp] theorem State.setDt_sp (s : State) (b : Byte) : (s.setDt b).sp = s.sp := rfl
@[simp] theorem State.setDt_dt (s : State) (b : Byte) : (s.setDt b).dt = b := rfl
@[simp] theorem State.setDt_st (s : State) (b : Byte) : (s.setDt b).st = s.st := rfl
@[simp] theorem State.setDt_soundActive (s : State) (b : Byte) : (s.setDt b).soundActive = s.soundActive := rfl
@[simp] theorem State.setDt_keys (s : State) (b : Byte) : (s.setDt b).keys = s.keys := rfl
@[simp] theorem State.setDt_fb (s : State) (b : Byte) : (s.setDt b).fb = s.fb := rfl
@[simp] theorem State.setDt_dirty (s : State) (b : Byte) : (s.setDt b).dirty = s.dirty := rfl
@[simp] theorem State.setDt_font (s : State) (b : Byte) : (s.setDt b).font = s.font := rfl
@[simp] theorem State.setDt_draws (s : State) (b : Byte) : (s.setDt b).draws = s.draws := rfl
@[simp] theorem State.setDt_report (s : State) (b : Byte) : (s.setDt b).report = s.report := rfl
@[simp] theorem State.setDt_reported (s : State) (b : Byte) : (s.setDt b).reported = s.reported := rfl

@[simp] theorem State.setSt_mem (s : State) (b : Byte) : (s.setSt b).mem = s.mem := rfl
@[simp] theorem State.setSt_v (s : State) (b : Byte) : (s.setSt b).v = s.v := rfl
@[simp] theorem State.setSt_i (s : State) (b : Byte) : (s.setSt b).i = s.i := rfl
@[simp] theorem State.setSt_pc (s : State) (b : Byte) : (s.setSt b).pc = s.pc := rfl
@[simp] theorem State.setSt_stack (s : State) (b : Byte) : (s.setSt b).stack = s.stack := rfl
@[simp] theorem State.setSt_sp (s : State) (b : Byte) : (s.setSt b).sp = s.sp := rfl
@[simp] theorem State.setSt_dt (s : State) (b : Byte) : (s.setSt b).dt = s.dt := rfl
@[simp] theorem State.setSt_st (s : State) (b : Byte) : (s.setSt b).st = b := rfl
@[simp] theorem State.setSt_soundActive (s : State) (b : Byte) : (s.setSt b).soundActive = s.soundActive := rfl
@[simp] theorem State.setSt_keys (s : State) (b : Byte) : (s.setSt b).keys = s.keys := rfl
@[simp] theorem State.setSt_fb (s : State) (b : Byte) : (s.setSt b).fb = s.fb := rfl
@[simp] theorem State.setSt_dirty (s : State) (b : Byte) : (s.setSt b).dirty = s.dirty := rfl
@[simp] theorem State.setSt_font (s : State) (b : Byte) : (s.setSt b).font = s.font := rfl
@[simp] theorem State.setSt_draws (s : State) (b : Byte) : (s.setSt b).draws = s.draws := rfl
@[simp] theorem State.setSt_report (s : State) (b : Byte) : (s.setSt b).report = s.report := rfl
@[simp] theorem State.setSt_reported (s : State) (b : Byte) : (s.setSt b).reported = s.reported := rfl

@[simp] theorem State.poke_mem (s : State) (a : Nat) (b : Byte) : (s.poke a b).mem = Memory.write s.font s.mem a b := rfl
@[simp] theorem State.poke_v (s : State) (a : Nat) (b : Byte) : (s.poke a b).v = s.v := rfl
@[simp] theorem State.poke_i (s : State) (a : Nat) (b : Byte) : (s.poke a b).i = s.i := rfl
@[simp] theorem State.poke_pc (s : State) (a : Nat) (b : Byte) : (s.poke a b).pc = s.pc := rfl
@[simp] theorem State.poke_stack (s : State) (a : Nat) (b : Byte) : (s.poke a b).stack = s.stack := rfl
@[simp] theorem State.poke_sp (s : State) (a : Nat) (b : Byte) : (s.poke a b).sp = s.sp := rfl
@[simp] theorem State.poke_dt (s : State) (a : Nat) (b : Byte) : (s.poke a b).dt = s.dt := rfl
@[simp] theorem State.poke_st (s : State) (a : Nat) (b : Byte) : (s.poke a b).st = s.st := rfl
@[simp] theorem State.poke_soundActive (s : State) (a : Nat) (b : Byte) : (s.poke a b).soundActive = s.soundActive := rfl
@[simp] theorem State.poke_keys (s : State) (a : Nat) (b : Byte) : (s.poke a b).keys = s.keys := rfl
@[simp] theorem State.poke_fb (s : State) (a : Nat) (b : Byte) : (s.poke a b).fb = s.fb := rfl
@[simp] theorem State.poke_dirty (s : State) (a : Nat) (b : Byte) : (s.poke a b).dirty = s.dirty := rfl
@[simp] theorem State.poke_font (s : State) (a : Nat) (b : Byte) : (s.poke a b).font = s.font := rfl
@[simp] theorem State.poke_draws (s : State) (a : Nat) (b : Byte) : (s.poke a b).draws = s.draws := rfl
@[simp] theorem State.poke_report (s : State) (a : Nat) (b : Byte) : (s.poke a b).report = s.report := rfl
@[simp] theorem State.poke_reported (s : State) (a : Nat) (b : Byte) : (s.poke a b).reported = s.reported := rfl

@[simp] theorem State.setDisplay_mem (s : State) (fb : Framebuffer) : (s.setDisplay fb).mem = s.mem := rfl
@[simp] theorem State.setDisplay_v (s : State) (fb : Framebuffer) : (s.setDisplay fb).v = s.v := rfl
@[simp] theorem State.setDisplay_i (s : State) (fb : Framebuffer) : (s.setDisplay fb).i = s.i := rfl
@[simp] theorem State.setDisplay_pc (s : State) (fb : Framebuffer) : (s.setDisplay fb).pc = s.pc := rfl
@[simp] theorem State.setDisplay_stack (s : State) (fb : Framebuffer) : (s.setDisplay fb).stack = s.stack := rfl
@[simp] theorem State.setDisplay_sp (s : State) (fb : Framebuffer) : (s.setDisplay fb).sp = s.sp := rfl
@[simp] theorem State.setDisplay_dt (s : State) (fb : Framebuffer) : (s.setDisplay fb).dt = s.dt := rfl
@[simp] theorem State.setDisplay_st (s : State) (fb : Framebuffer) : (s.setDisplay fb).st = s.st := rfl
@[simp] theorem State.setDisplay_soundActive (s : State) (fb : Framebuffer) : (s.setDisplay fb).soundActive = s.soundActive := rfl
@[simp] theorem State.setDisplay_keys (s : State) (fb : Framebuffer) : (s.setDisplay fb).keys = s.keys := rfl
@[simp] theorem State.setDisplay_fb (s : State) (fb : Framebuffer) : (s.setDisplay fb).fb = fb := rfl
@[simp] theorem State.setDisplay_dirty (s : State) (fb : Framebuffer) : (s.setDisplay fb).dirty = true := rfl
@[simp] theorem State.setDisplay_font (s : State) (fb : Framebuffer) : (s.setDisplay fb).font = s.font := rfl
@[simp] theorem State.setDisplay_draws (s : State) (fb : Framebuffer) : (s.setDisplay fb).draws = s.draws := rfl
@[simp] theorem State.setDisplay_report (s : State) (fb : Framebuffer) : (s.setDisplay fb).report = s.report := rfl
@[simp] theorem State.setDisplay_reported (s : State) (fb : Framebuffer) : (s.setDisplay fb).reported = s.reported := rfl

@[simp] theorem State.countDraw_mem (s : State) : (s.countDraw).mem = s.mem := rfl
@[simp] theorem State.countDraw_v (s : State) : (s.countDraw).v = s.v := rfl
@[simp] theorem State.countDraw_i (s : State) : (s.countDraw).i = s.i := rfl
@[simp] theorem State.countDraw_pc (s : State) : (s.countDraw).pc = s.pc := rfl
@[simp] theorem State.countDraw_stack (s : State) : (s.countDraw).stack = s.stack := rfl
@[simp] theorem State.countDraw_sp (s : State) : (s.countDraw).sp = s.sp := rfl
@[simp] theorem State.countDraw_dt (s : State) : (s.countDraw).dt = s.dt := rfl
@[simp] theorem State.countDraw_st (s : State) : (s.countDraw).st = s.st := rfl
@[simp] theorem State.countDraw_soundActive (s : State) : (s.countDraw).soundActive = s.soundActive := rfl
@[simp] theorem State.countDraw_keys (s : State) : (s.countDraw).keys = s.keys := rfl
@[simp] theorem State.countDraw_fb (s : State) : (s.countDraw).fb = s.fb := rfl
@[simp] theorem State.countDraw_dirty (s : State) : (s.countDraw).dirty = s.dirty := rfl
@[simp] theorem State.countDraw_font (s : State) : (s.countDraw).font = s.font := rfl
@[simp] theorem State.countDraw_draws (s : State) : (s.countDraw).draws = s.draws + 1 := rfl
@[simp] theorem State.countDraw_report (s : State) : (s.countDraw).report = s.report := rfl
@[simp] theorem State.countDraw_reported (s : State) : (s.countDraw).reported = s.reported := rfl

@[simp] theorem State.raise_mem (s : State) (c : Report) : (s.raise c).mem = s.mem := rfl
@[simp] theorem State.raise_v (s : State) (c : Report) : (s.raise c).v = s.v := rfl
@[simp] theorem State.raise_i (s : State) (c : Report) : (s.raise c).i = s.i := rfl
@[simp] theorem State.raise_pc (s : State) (c : Report) : (s.raise c).pc = s.pc := rfl
@[simp] theorem State.raise_stack (s : State) (c : Report) : (s.raise c).stack = s.stack := rfl
@[simp] theorem State.raise_sp (s : State) (c : Report) : (s.raise c).sp = s.sp := rfl
@[simp] theorem State.raise_dt (s : State) (c : Report) : (s.raise c).dt = s.dt := rfl
@[simp] theorem State.raise_st (s : State) (c : Report) : (s.raise c).st = s.st := rfl
@[simp] theorem State.raise_soundActive (s : State) (c : Report) : (s.raise c).soundActive = s.soundActive := rfl
@[simp] theorem State.raise_keys (s : State) (c : Report) : (s.raise c).keys = s.keys := rfl
@[simp] theorem State.raise_fb (s : State) (c : Report) : (s.raise c).fb = s.fb := rfl
@[simp] theorem State.raise_dirty (s : State) (c : Report) : (s.raise c).dirty = s.dirty := rfl
@[simp] theorem State.raise_font (s : State) (c : Report) : (s.raise c).font = s.font := rfl
@[simp] theorem State.raise_draws (s : State) (c : Report) : (s.raise c).draws = s.draws := rfl
@[simp] theorem State.raise_report (s : State) (c : Report) : (s.raise c).report = some c := rfl
@[simp] theorem State.raise_reported (s : State) (c : Report) : (s.raise c).reported = true := rfl

@[simp] theorem State.startStep_mem (s : State) : (s.startStep).mem = s.mem := rfl
@[simp] theorem State.startStep_v (s : State) : (s.startStep).v = s.v := rfl
@[simp] theorem State.startStep_i (s : State) : (s.startStep).i = s.i := rfl
@[simp] theorem State.startStep_pc (s : State) : (s.startStep).pc = s.pc := rfl
@[simp] theorem State.startStep_stack (s : State) : (s.startStep).stack = s.stack := rfl
@[simp] theorem State.startStep_sp (s : State) : (s.startStep).sp = s.sp := rfl
@[simp] theorem State.startStep_dt (s : State) : (s.startStep).dt = s.dt := rfl
@[simp] theorem State.startStep_st (s : State) : (s.startStep).st = s.st := rfl
@[simp] theorem State.startStep_soundActive (s : State) : (s.startStep).soundActive = s.soundActive := rfl
@[simp] theorem State.startStep_keys (s : State) : (s.startStep).keys = s.keys := rfl
@[simp] theorem State.startStep_fb (s : State) : (s.startStep).fb = s.fb := rfl
@[simp] theorem State.startStep_dirty (s : State) : (s.startStep).dirty = s.dirty := rfl
@[simp] theorem State.startStep_font (s : State) : (s.startStep).font = s.font := rfl
@[simp] theorem State.startStep_draws (s : State) : (s.startStep).draws = s.draws := rfl
@[simp] theorem State.startStep_report (s : State) : (s.startStep).report = none := rfl
@[simp] theorem State.startStep_reported (s : State) : (s.startStep).reported = s.reported := rfl

@[simp] theorem State.tick_mem (s : State) : (s.tick).mem = s.mem := rfl
@[simp] theorem State.tick_v (s : State) : (s.tick).v = s.v := rfl
@[simp] theorem State.tick_i (s : State) : (s.tick).i = s.i := rfl
@[simp] theorem State.tick_pc (s : State) : (s.tick).pc = s.pc := rfl
@[simp] theorem State.tick_stack (s : State) : (s.tick).stack = s.stack := rfl
@[simp] theorem State.tick_sp (s : State) : (s.tick).sp = s.sp := rfl
@[simp] theorem State.tick_dt (s : State) : (s.tick).dt = countDown s.dt := rfl
@[simp] theorem State.tick_st (s : State) : (s.tick).st = countDown s.st := rfl
@[simp] theorem State.tick_soundActive (s : State) : (s.tick).soundActive = (decide (s.st.toNat > 0) && decide (countDown s.st = 0)) := rfl
@[simp] theorem State.tick_keys (s : State) : (s.tick).keys = s.keys := rfl
@[simp] theorem State.tick_fb (s : State) : (s.tick).fb = s.fb := rfl
@[simp] theorem State.tick_dirty (s : State) : (s.tick).dirty = s.dirty := rfl
@[simp] theorem State.tick_font (s : State) : (s.tick).font = s.font := rfl
@[simp] theorem State.tick_draws (s : State) : (s.tick).draws = s.draws := rfl
@[simp] theorem State.tick_report (s : State) : (s.tick).report = s.report := rfl
@[simp] theorem State.tick_reported (s : State) : (s.tick).reported = s.reported := rfl

end Sys2Proof.Machine
end

