-- ==== Sys2Proof/Laws/Memory.lean ====
section
/-! SUPPORT. What the memory operations do: read after write, the canonical form, and the blocks of bytes. -/

namespace Sys2Proof.Machine

/-! ## Lists of cells -/

theorem Memory.read_erase_same (font : Vector Byte 80) (m : Memory) (a : Nat) :
    Memory.read font (Memory.erase m a) a = Memory.unlisted font a := by
  induction m with
  | nil => rfl
  | cons c cs ih =>
    by_cases h : c.1 = a
    · simp [Memory.erase, h, ih]
    · simp [Memory.erase, h, Memory.read, ih]

theorem Memory.read_erase_other (font : Vector Byte 80) (m : Memory) {a a' : Nat} (h : a' ≠ a) :
    Memory.read font (Memory.erase m a) a' = Memory.read font m a' := by
  induction m with
  | nil => rfl
  | cons c cs ih =>
    by_cases hc : c.1 = a
    · have : c.1 ≠ a' := fun e => h (e.symm.trans hc)
      simp [Memory.erase, hc, Memory.read, ih, Ne.symm h]
    · rw [Memory.erase, if_neg hc, Memory.read, Memory.read, ih]

theorem Memory.read_insert_other (font : Vector Byte 80) (m : Memory) {a a' : Nat} (b : Byte) (h : a' ≠ a) :
    Memory.read font (Memory.insert m a b) a' = Memory.read font m a' := by
  induction m with
  | nil => simp [Memory.insert, Memory.read, Ne.symm h]
  | cons c cs ih =>
    by_cases hc : c.1 < a
    · simp [Memory.insert, hc, Memory.read, ih]
    · simp [Memory.insert, hc, Memory.read, Ne.symm h]

/-- Every cell of a list without an address has another address. -/
theorem Memory.erase_ne (m : Memory) (a : Nat) : ∀ c ∈ Memory.erase m a, c.1 ≠ a := by
  induction m with
  | nil => simp [Memory.erase]
  | cons c cs ih =>
    by_cases h : c.1 = a
    · simpa [Memory.erase, h] using ih
    · simpa [Memory.erase, h] using ih

theorem Memory.read_insert_same (font : Vector Byte 80) (m : Memory) (a : Nat) (b : Byte)
    (h : ∀ c ∈ m, c.1 ≠ a) : Memory.read font (Memory.insert m a b) a = b := by
  induction m with
  | nil => simp [Memory.insert, Memory.read]
  | cons c cs ih =>
    have hc : c.1 ≠ a := h c (by simp)
    by_cases hlt : c.1 < a
    · simpa [Memory.insert, hlt, Memory.read, hc] using ih (fun d hd => h d (by simp [hd]))
    · simp [Memory.insert, hlt, Memory.read]

theorem Memory.read_write_same (font : Vector Byte 80) (m : Memory) (a : Nat) (b : Byte) :
    Memory.read font (Memory.write font m a b) a = b := by
  unfold Memory.write
  split
  · next h => rw [Memory.read_erase_same, h]
  · exact Memory.read_insert_same font _ a b (Memory.erase_ne m a)

theorem Memory.read_write_other (font : Vector Byte 80) (m : Memory) {a a' : Nat} (b : Byte) (h : a' ≠ a) :
    Memory.read font (Memory.write font m a b) a' = Memory.read font m a' := by
  unfold Memory.write
  split
  · exact Memory.read_erase_other font m h
  · rw [Memory.read_insert_other font _ b h, Memory.read_erase_other font m h]

/-! ## The canonical form -/

theorem Memory.wfFrom_cons {font : Vector Byte 80} {low : Nat} {c : Host.Cell} {cs : Memory} :
    Memory.wfFrom font low (c :: cs) = true ↔
      low ≤ c.1 ∧ c.1 ≤ Config.maxAddr ∧ c.2 ≠ Memory.unlisted font c.1 ∧ Memory.wfFrom font (c.1 + 1) cs = true := by
  simp [Memory.wfFrom, and_assoc]

theorem Memory.wfFrom_mono {font : Vector Byte 80} {low low' : Nat} {m : Memory} (h : low' ≤ low)
    (hm : Memory.wfFrom font low m = true) : Memory.wfFrom font low' m = true := by
  cases m with
  | nil => rfl
  | cons c cs =>
    rw [Memory.wfFrom_cons] at hm ⊢
    exact ⟨h.trans hm.1, hm.2⟩

theorem Memory.wfFrom_erase {font : Vector Byte 80} {low : Nat} {m : Memory} (a : Nat)
    (hm : Memory.wfFrom font low m = true) : Memory.wfFrom font low (Memory.erase m a) = true := by
  induction m generalizing low with
  | nil => rfl
  | cons c cs ih =>
    obtain ⟨hl, hmax, hne, hcs⟩ := Memory.wfFrom_cons.mp hm
    by_cases h : c.1 = a
    · simpa [Memory.erase, h] using Memory.wfFrom_mono (Nat.le_succ_of_le hl) (ih hcs)
    · simpa [Memory.erase, h] using Memory.wfFrom_cons.mpr ⟨hl, hmax, hne, ih hcs⟩

theorem Memory.wfFrom_insert {font : Vector Byte 80} {low : Nat} {m : Memory} {a : Nat} {b : Byte}
    (hm : Memory.wfFrom font low m = true) (hfree : ∀ c ∈ m, c.1 ≠ a) (hl : low ≤ a) (ha : a ≤ Config.maxAddr)
    (hb : b ≠ Memory.unlisted font a) : Memory.wfFrom font low (Memory.insert m a b) = true := by
  induction m generalizing low with
  | nil => exact Memory.wfFrom_cons.mpr ⟨hl, ha, hb, rfl⟩
  | cons c cs ih =>
    obtain ⟨hlc, hmax, hne, hcs⟩ := Memory.wfFrom_cons.mp hm
    have hca : c.1 ≠ a := hfree c (by simp)
    by_cases hlt : c.1 < a
    · simpa [Memory.insert, hlt] using Memory.wfFrom_cons.mpr
        ⟨hlc, hmax, hne, ih hcs (fun d hd => hfree d (by simp [hd])) hlt⟩
    · simpa [Memory.insert, hlt] using Memory.wfFrom_cons.mpr
        ⟨hl, ha, hb, Memory.wfFrom_cons.mpr ⟨by show a + 1 ≤ c.1; omega, hmax, hne, hcs⟩⟩

/-- A write to an address of memory keeps the canonical form. -/
theorem Memory.wf_write {font : Vector Byte 80} {m : Memory} {a : Nat} (b : Byte) (hm : Memory.wf font m = true)
    (ha : a ≤ Config.maxAddr) : Memory.wf font (Memory.write font m a b) = true := by
  unfold Memory.write
  split
  · exact Memory.wfFrom_erase a hm
  · next hb => exact Memory.wfFrom_insert (Memory.wfFrom_erase a hm) (Memory.erase_ne m a) (Nat.zero_le a) ha hb

/-! ## Bytes of the machine's memory -/

@[simp] theorem State.peek_poke_same (s : State) (a : Nat) (b : Byte) : (s.poke a b).peek a = b :=
  Memory.read_write_same s.font s.mem a b

theorem State.peek_poke_other (s : State) {a a' : Nat} (b : Byte) (h : a' ≠ a) : (s.poke a b).peek a' = s.peek a' :=
  Memory.read_write_other s.font s.mem b h

/-- Reading depends on `mem` and `font` alone. -/
theorem State.peek_congr {s t : State} (hm : s.mem = t.mem) (hf : s.font = t.font) (a : Nat) : s.peek a = t.peek a := by
  simp [State.peek, hm, hf]

theorem State.memRead_ok {s : State} {a : Nat} (h : a ≤ 0xFFF) : s.memRead a = .ok (s.peek a) := by
  simp [State.memRead, h]

theorem State.memRead_error {s : State} {a : Nat} (h : 0xFFF < a) : s.memRead a = .error (.memoryBounds a) := by
  simp [State.memRead, Nat.not_le.mpr h]

/-! ## Blocks -/

/-- A store of several bytes changes memory and nothing else. -/
theorem State.pokeAll_eq (s : State) (a : Nat) (bs : List Byte) :
    s.pokeAll a bs = { s with mem := (s.pokeAll a bs).mem } := by
  induction bs generalizing s a with
  | nil => rfl
  | cons b bs ih => rw [State.pokeAll, ih (s.poke a b)]; rfl

/-- What a store of several bytes leaves at each address. -/
theorem State.peek_pokeAll (s : State) (a : Nat) (bs : List Byte) (a' : Nat) :
    (s.pokeAll a bs).peek a' =
      if a ≤ a' ∧ a' < a + bs.length then bs.getD (a' - a) 0 else s.peek a' := by
  induction bs generalizing s a with
  | nil => simp [State.pokeAll, show ¬ (a ≤ a' ∧ a' < a) from by omega]
  | cons b bs ih =>
    rw [State.pokeAll, ih]
    rcases Nat.lt_trichotomy a' a with h | h | h
    · rw [if_neg (by omega), if_neg (by omega), State.peek_poke_other s b (by omega)]
    · subst h; simp
    · obtain ⟨d, rfl⟩ : ∃ d, a' = a + 1 + d := ⟨a' - a - 1, by omega⟩
      have e : a + 1 + d - a = d + 1 := by omega
      have e' : a + 1 + d - (a + 1) = d := by omega
      rw [State.peek_poke_other s b (by omega), e, e']
      simp only [List.length_cons, List.getD_cons_succ]
      by_cases hd : d < bs.length
      · rw [if_pos (by omega), if_pos (by omega)]
      · rw [if_neg (by omega), if_neg (by omega)]

/-- A block inside memory keeps the canonical form. -/
theorem State.pokeAll_wf {s : State} {a : Nat} {bs : List Byte} (hs : Memory.wf s.font s.mem = true)
    (ha : a + bs.length ≤ 4096) : Memory.wf s.font (s.pokeAll a bs).mem = true := by
  induction bs generalizing s a with
  | nil => exact hs
  | cons b bs ih =>
    simp only [List.length_cons] at ha
    exact ih (s := s.poke a b) (Memory.wf_write b hs (by show a ≤ 0xFFF; omega)) (by omega)

/-- A write block inside memory stores all its bytes. -/
theorem State.writeBlock_ok {s : State} {a : Nat} {bs : List Byte} (h : a + bs.length ≤ 4096) :
    s.writeBlock a bs = .ok (s.pokeAll a bs) := by
  induction bs generalizing s a with
  | nil => rfl
  | cons b bs ih =>
    simp only [List.length_cons] at h
    simp [State.writeBlock, State.memWrite, State.pokeAll, show a ≤ 4095 by omega, ih (s := s.poke a b) (a := a + 1) (by omega)]

/-- A write block that reaches above 0xFFF reports its lowest address out of range and stores nothing. -/
theorem State.writeBlock_error {s : State} {a : Nat} {bs : List Byte} (h : 4096 < a + bs.length) (hne : bs ≠ []) :
    s.writeBlock a bs = .error (.memoryBounds (max a 0x1000)) := by
  induction bs generalizing s a with
  | nil => exact absurd rfl hne
  | cons b bs ih =>
    simp only [List.length_cons] at h
    by_cases ha : a ≤ 4095
    · have hbs : bs ≠ [] := by rintro rfl; simp at h; omega
      have e : max (a + 1) 0x1000 = max a 0x1000 := by omega
      simp [State.writeBlock, State.memWrite, ha, ih (s := s.poke a b) (a := a + 1) (by omega) hbs, e]
    · have e : max a 0x1000 = a := by omega
      simp [State.writeBlock, State.memWrite, ha, e]

/-- A read block inside memory gives the bytes at ascending addresses. -/
theorem State.readBlock_ok {s : State} {a n : Nat} (h : n = 0 ∨ a + n ≤ 4096) :
    s.readBlock a n = .ok ((List.range n).map (fun k => s.peek (a + k))) := by
  induction n generalizing a with
  | zero => rfl
  | succ n ih =>
    have e : (fun k => s.peek (a + 1 + k)) = (fun k => s.peek (a + (k + 1))) := by
      funext k; congr 1; omega
    simp [State.readBlock, State.memRead, show a ≤ 4095 by omega, ih (a := a + 1) (by omega), List.range_succ_eq_map, e,
      Function.comp_def]

/-- A read block that reaches above 0xFFF reports its lowest address out of range. -/
theorem State.readBlock_error {s : State} {a n : Nat} (h : 4096 < a + n) (hn : n ≠ 0) :
    s.readBlock a n = .error (.memoryBounds (max a 0x1000)) := by
  induction n generalizing a with
  | zero => exact absurd rfl hn
  | succ n ih =>
    by_cases ha : a ≤ 4095
    · have e : max (a + 1) 0x1000 = max a 0x1000 := by omega
      simp [State.readBlock, State.memRead, ha, ih (a := a + 1) (by omega) (by omega), e]
    · have e : max a 0x1000 = a := by omega
      simp [State.readBlock, State.memRead, ha, e]

end Sys2Proof.Machine
end

