-- ==== Sys2Proof/Laws/Operations.lean ====
section
/-! SUPPORT. What each shared operation can do, said once: reporting, registers, the stack, the key latch, the timers, and
fetching. -/

namespace Sys2Proof.Machine

/-! ## Ending an execute phase -/

theorem State.finish_ok {α : Type} {s : State} {r : Except Report α} {k : α → State} {a : α} (h : r = .ok a) :
    s.finish r k = .next (k a) := by subst h; rfl

theorem State.finish_error {α : Type} {s : State} {r : Except Report α} {k : α → State} {c : Report}
    (h : r = .error c) : s.finish r k = .next (s.raise c) := by subst h; rfl

/-- An execute phase that may raise either completes or reports; it never stops. -/
theorem State.finish_cases {α : Type} {s t : State} {r : Except Report α} {k : α → State}
    (h : s.finish r k = .next t) : (∃ a, r = .ok a ∧ t = k a) ∨ (∃ c, r = .error c ∧ t = s.raise c) := by
  cases r with
  | ok a => exact .inl ⟨a, rfl, by simpa [State.finish] using h.symm⟩
  | error c => exact .inr ⟨c, rfl, by simpa [State.finish] using h.symm⟩

/-! ## Registers and flags -/

@[simp] theorem State.getV_eq (s : State) (r : Reg) : s.getV r = s.v[r] := rfl

theorem flagByte_toNat (c : Bool) : (flagByte c).toNat = if c = true then 1 else 0 := by
  cases c <;> rfl

theorem lsbFlag_toNat (b : Byte) : (flagByte (lsbFlag b)).toNat = b.toNat % 2 := by
  rw [flagByte_toNat, lsbFlag, BitVec.getLsbD, Nat.testBit_zero]
  rcases Nat.mod_two_eq_zero_or_one b.toNat with h | h <;> simp [h]

theorem msbFlag_toNat (b : Byte) : (flagByte (msbFlag b)).toNat = b.toNat / 128 := by
  have hb := b.isLt
  rw [flagByte_toNat, msbFlag, BitVec.getLsbD, Nat.testBit_eq_decide_div_mod_eq]
  simp only [decide_eq_true_eq]
  split <;> omega

theorem State.setV_get (s : State) (r r' : Reg) (b : Byte) :
    (s.setV r b).v[r'] = if r' = r then b else s.v[r'] := by
  by_cases h : r' = r
  · subst h; simp
  · have : r.val ≠ r'.val := fun e => h (Fin.ext e.symm)
    simp [h, this]

theorem State.setFlag_get (s : State) (r' : Reg) (c : Bool) :
    (s.setFlag c).v[r'] = if r' = vf then flagByte c else s.v[r'] :=
  s.setV_get vf r' (flagByte c)

@[simp] theorem State.firstRegs_length (s : State) (x : Reg) : (s.firstRegs x).length = x.val + 1 := by
  have := x.isLt
  simp [State.firstRegs]

theorem State.firstRegs_getD (s : State) (x k : Reg) (h : k ≤ x) : (s.firstRegs x).getD k.val 0 = s.v[k] := by
  have hk : k.val < x.val + 1 := Nat.lt_succ_of_le h
  simp [State.firstRegs, List.getD, hk]

theorem loadRegs_get (k : Nat) (bs : List Byte) (v : Vector Byte 16) (j : Reg) :
    (loadRegs k bs v)[j] = if k ≤ j.val ∧ j.val < k + bs.length then bs.getD (j.val - k) 0 else v[j] := by
  induction bs generalizing k v with
  | nil => simp [loadRegs, show ¬ (k ≤ j.val ∧ j.val < k) from by omega]
  | cons b bs ih =>
    have hj := j.isLt
    rw [loadRegs, ih]
    rcases Nat.lt_trichotomy j.val k with h | h | h
    · rw [if_neg (by omega), if_neg (by omega)]
      split
      · simp [show k ≠ j.val by omega]
      · rfl
    · subst h; simp
    · obtain ⟨d, hd⟩ : ∃ d, j.val = k + 1 + d := ⟨j.val - k - 1, by omega⟩
      have e : j.val - k = d + 1 := by omega
      have e' : j.val - (k + 1) = d := by omega
      rw [e, e']
      simp only [List.length_cons, List.getD_cons_succ]
      by_cases hdl : d < bs.length
      · rw [if_pos (by omega), if_pos (by omega)]
      · rw [if_neg (by omega), if_neg (by omega)]
        split
        · simp [show k ≠ j.val by omega]
        · rfl

/-! ## The program counter -/

/-- A conditional skip as a number: 4 further when the condition holds, else 2. -/
theorem State.skipIf_toNat (s : State) (c : Prop) [Decidable c] :
    (s.skipIf (decide c)).pc.toNat = (s.pc.toNat + if c then 4 else 2) % 65536 := by
  by_cases h : c <;> simp [State.skipIf, h]

theorem State.advance_toNat (s : State) : s.advance.pc.toNat = (s.pc.toNat + 2) % 65536 := by simp

/-! ## The call stack -/

theorem State.pushPc_ok {s : State} (h : s.sp.val < 16) :
    s.pushPc = .ok { s with stack := s.stack.set s.sp.val s.pc h, sp := ⟨s.sp.val + 1, by omega⟩ } := by
  simp [State.pushPc, h]

theorem State.pushPc_error {s : State} (h : s.sp.val = 16) : s.pushPc = .error (.stackOverflow s.pc) := by
  simp [State.pushPc, h]

theorem State.popStack_ok {s : State} (h : 0 < s.sp.val) :
    s.popStack = .ok (s.stack[s.sp.val - 1], { s with sp := ⟨s.sp.val - 1, by omega⟩ }) := by
  simp [State.popStack, h]

theorem State.popStack_error {s : State} (h : s.sp.val = 0) : s.popStack = .error (.stackUnderflow s.pc) := by
  simp [State.popStack, h]

/-! ## The key latch -/

theorem State.keyAt_ok {s : State} {x : Reg} (h : (s.v[x]).toNat < 16) :
    s.keyAt x = .ok s.keys[(s.v[x]).toNat] := dif_pos h

theorem State.keyAt_error {s : State} {x : Reg} (h : 15 < (s.v[x]).toNat) :
    s.keyAt x = .error (.keyIndexRange s.pc s.v[x]) := dif_neg (Nat.not_lt.mpr h)

@[simp] theorem State.mem_pressedKeys {s : State} {k : Key} : k ∈ s.pressedKeys ↔ s.keys[k] = true := by
  simp [State.pressedKeys]

/-- The chosen key is a pressed one. -/
theorem selectKey_mem {p : List Key} {k : Key} (h : selectKey p = some k) : k ∈ p := by
  match p, h with
  | [a], h => simp [selectKey] at h; simp [h]
  | a :: b :: ks, h =>
    simp only [selectKey, Option.some.injEq] at h
    rw [← h, List.getD_eq_getElem _ _ (Nat.mod_lt _ (by simp))]
    exact List.getElem_mem _

/-- A key is chosen exactly when some key is pressed. -/
theorem selectKey_eq_none {p : List Key} : selectKey p = none ↔ p = [] := by
  match p with
  | [] => simp [selectKey]
  | [a] => simp [selectKey]
  | a :: b :: ks => simp [selectKey]

/-! ## The timers -/

@[simp] theorem countDown_toNat (b : Byte) : (countDown b).toNat = b.toNat - 1 := by
  unfold countDown
  split
  · have := b.isLt; simp; omega
  · omega

/-- `SOUND_ACTIVE` after a tick: the tick took `ST` from 1 to 0. -/
theorem State.tick_sound_iff (s : State) : s.tick.soundActive = true ↔ s.st = 1 := by
  have e : countDown s.st = 0 ↔ (countDown s.st).toNat = 0 := by simp [BitVec.toNat_eq]
  have e' : s.st = 1 ↔ s.st.toNat = 1 := by simp [BitVec.toNat_eq]
  simp only [State.tick_soundActive, Bool.and_eq_true, decide_eq_true_eq, e, countDown_toNat, e']
  omega

@[simp] theorem tickAfter_next (s : State) : tickAfter (.next s) = .next s.tick := rfl

/-- A ticked outcome is a next state only when the execute phase answered one. -/
theorem tickAfter_eq_next {o : Host.Outcome State Fault Refusal} {t : State} (h : tickAfter o = .next t) :
    ∃ u, o = .next u ∧ t = u.tick := by
  cases o with
  | next u => exact ⟨u, rfl, by simpa using h.symm⟩
  | fault f => cases f
  | refused r => simp [tickAfter] at h

/-! ## Fetching -/

theorem State.fetch_ok {s : State} (h : s.pc.toNat ≤ 0xFFE) :
    s.fetch = .ok (wordOfBytes (s.peek s.pc.toNat) (s.peek (s.pc.toNat + 1))) := by
  simp [State.fetch, State.memRead_ok (show s.pc.toNat ≤ 0xFFF by omega),
    State.memRead_ok (show s.pc.toNat + 1 ≤ 0xFFF by omega)]

theorem State.fetch_error {s : State} (h : 0xFFE < s.pc.toNat) :
    s.fetch = .error (.memoryBounds (max s.pc.toNat 0x1000)) := by
  by_cases h' : s.pc.toNat ≤ 0xFFF
  · have e : s.pc.toNat = 0xFFF := by omega
    simp [State.fetch, e, State.memRead_ok (show (0xFFF : Nat) ≤ 0xFFF by omega),
      State.memRead_error (show 0xFFF < 0x1000 by omega)]
  · have e : max s.pc.toNat 0x1000 = s.pc.toNat := by omega
    simp [State.fetch, State.memRead_error (show 0xFFF < s.pc.toNat by omega), e]

theorem wordOfBytes_toNat (hi lo : Byte) : (wordOfBytes hi lo).toNat = hi.toNat * 256 + lo.toNat := by
  have := lo.isLt
  rw [wordOfBytes, BitVec.toNat_append, Nat.shiftLeft_eq, Nat.mul_comm, ← Nat.two_pow_add_eq_or_of_lt this, Nat.mul_comm]

theorem wordOfBytes_hi_lo (w : Word) : wordOfBytes (hiByte w) (loByte w) = w := by
  apply BitVec.eq_of_toNat_eq
  have := w.isLt
  rw [wordOfBytes_toNat]
  simp [hiByte, loByte, BitVec.extractLsb'_toNat, Nat.shiftRight_eq_div_pow]
  omega

end Sys2Proof.Machine
end

