-- ==== Sys2Proof/Laws/Draw.lean ====
section
/-! SUPPORT. What the sprite loops do to the framebuffer: the cells they visit are distinct, so each is toggled once, and
the collision bit tells whether one of them was on. -/

namespace Sys2Proof.Machine

/-- A pixel's place: column and row. -/
abbrev Cell := Fin 64 × Fin 32

theorem Framebuffer.pixel_toggle (fb : Framebuffer) (p q : Cell) :
    (fb.toggle p.1 p.2).pixel q.1 q.2 = if q = p then !fb.pixel p.1 p.2 else fb.pixel q.1 q.2 := by
  obtain ⟨px, py⟩ := p
  obtain ⟨qx, qy⟩ := q
  by_cases hy : qy = py
  · subst hy
    by_cases hx : qx = px
    · subst hx; simp [Framebuffer.toggle, Framebuffer.pixel]
    · have : px.val ≠ qx.val := fun e => hx (Fin.ext e.symm)
      simp [Framebuffer.toggle, Framebuffer.pixel, hx, this]
  · have : py.val ≠ qy.val := fun e => hy (Fin.ext e.symm)
    simp [Framebuffer.toggle, Framebuffer.pixel, hy, this]

/-- Two framebuffers with the same pixels are the same. -/
theorem Framebuffer.ext_pixel {f g : Framebuffer} (h : ∀ x y, f.pixel x y = g.pixel x y) : f = g := by
  apply Vector.ext
  intro y hy
  apply Vector.ext
  intro x hx
  exact h ⟨x, hx⟩ ⟨y, hy⟩

/-- Toggling one cell, and whether it was on. -/
def touch (acc : Framebuffer × Bool) (p : Cell) : Framebuffer × Bool := drawBit true p.1 p.2 acc

/-- Touching distinct cells: each is toggled once, and the bit says whether one of them was on. -/
theorem touch_all (ps : List Cell) (acc : Framebuffer × Bool) (h : ps.Nodup) :
    (∀ q : Cell, (ps.foldl touch acc).1.pixel q.1 q.2 = if q ∈ ps then !acc.1.pixel q.1 q.2 else acc.1.pixel q.1 q.2) ∧
      ((ps.foldl touch acc).2 = true ↔ acc.2 = true ∨ ∃ q ∈ ps, acc.1.pixel q.1 q.2 = true) := by
  induction ps generalizing acc with
  | nil => simp
  | cons p ps ih =>
    obtain ⟨hp, hps⟩ := List.nodup_cons.mp h
    obtain ⟨ihp, ihh⟩ := ih (touch acc p) hps
    have htouch : ∀ q : Cell, (touch acc p).1.pixel q.1 q.2 =
        if q = p then !acc.1.pixel p.1 p.2 else acc.1.pixel q.1 q.2 :=
      fun q => Framebuffer.pixel_toggle acc.1 p q
    constructor
    · intro q
      rw [List.foldl_cons, ihp q, htouch q]
      by_cases hq : q = p
      · subst hq; simp [hp]
      · simp [hq]
    · rw [List.foldl_cons, ihh]
      have hother : ∀ q ∈ ps, (touch acc p).1.pixel q.1 q.2 = acc.1.pixel q.1 q.2 := by
        intro q hq
        rw [htouch q, if_neg (fun e : q = p => hp (e ▸ hq))]
      have hbit : (touch acc p).2 = true ↔ acc.2 = true ∨ acc.1.pixel p.1 p.2 = true := by
        simp [touch, drawBit]
      rw [hbit]
      constructor
      · rintro ((h | h) | ⟨q, hq, h⟩)
        · exact .inl h
        · exact .inr ⟨p, by simp, h⟩
        · exact .inr ⟨q, by simp [hq], by rwa [hother q hq] at h⟩
      · rintro (hb | ⟨q, hq, hb⟩)
        · exact .inl (.inl hb)
        · rcases List.mem_cons.mp hq with rfl | hq
          · exact .inl (.inr hb)
          · exact .inr ⟨q, hq, by rwa [hother q hq]⟩

/-- The cells one sprite row selects. -/
def rowCells (x0 : Nat) (y : Fin 32) (b : Byte) : List Cell :=
  ((List.range 8).filter (fun col => b.getLsbD (7 - col))).map (fun col => (wrapColumn x0 col, y))

/-- The cells a sprite's rows select, from row number `row` on. -/
def spriteCells (x0 y0 : Nat) : Nat → List Byte → List Cell
  | _, [] => []
  | row, b :: bs => rowCells x0 (wrapRow y0 row) b ++ spriteCells x0 y0 (row + 1) bs

theorem drawRow_eq (x0 : Nat) (y : Fin 32) (b : Byte) (acc : Framebuffer × Bool) :
    drawRow x0 y b acc = (rowCells x0 y b).foldl touch acc := by
  have e : (fun (acc : Framebuffer × Bool) col => drawBit (b.getLsbD (7 - col)) (wrapColumn x0 col) y acc) =
      fun acc col => if b.getLsbD (7 - col) = true then touch acc (wrapColumn x0 col, y) else acc := by
    funext acc col
    by_cases h : b.getLsbD (7 - col) = true <;> simp [touch, drawBit, h]
  rw [drawRow, e, rowCells, List.foldl_map, List.foldl_filter]

theorem drawRows_eq (x0 y0 row : Nat) (bs : List Byte) (acc : Framebuffer × Bool) :
    drawRows x0 y0 row bs acc = (spriteCells x0 y0 row bs).foldl touch acc := by
  induction bs generalizing row acc with
  | nil => rfl
  | cons b bs ih => rw [drawRows, ih, drawRow_eq, spriteCells, List.foldl_append]

theorem mem_rowCells {x0 : Nat} {y : Fin 32} {b : Byte} {p : Cell} :
    p ∈ rowCells x0 y b ↔ ∃ col < 8, b.getLsbD (7 - col) = true ∧ p = (wrapColumn x0 col, y) := by
  simp only [rowCells, List.mem_map, List.mem_filter, List.mem_range]
  constructor
  · rintro ⟨col, ⟨h, hb⟩, rfl⟩; exact ⟨col, h, hb, rfl⟩
  · rintro ⟨col, h, hb, rfl⟩; exact ⟨col, ⟨h, hb⟩, rfl⟩

theorem mem_spriteCells {x0 y0 row : Nat} {bs : List Byte} {p : Cell} :
    p ∈ spriteCells x0 y0 row bs ↔ ∃ k < bs.length, ∃ col < 8,
      (bs.getD k 0).getLsbD (7 - col) = true ∧ p = (wrapColumn x0 col, wrapRow y0 (row + k)) := by
  induction bs generalizing row with
  | nil => simp [spriteCells]
  | cons b bs ih =>
    rw [spriteCells, List.mem_append, mem_rowCells, ih]
    constructor
    · rintro (⟨col, hc, hb, rfl⟩ | ⟨k, hk, col, hc, hb, rfl⟩)
      · exact ⟨0, by simp, col, hc, by simpa using hb, by simp⟩
      · exact ⟨k + 1, by simpa using hk, col, hc, by simpa using hb, by rw [Nat.add_right_comm, Nat.add_assoc]⟩
    · rintro ⟨k, hk, col, hc, hb, rfl⟩
      cases k with
      | zero => exact .inl ⟨col, hc, by simpa using hb, by simp⟩
      | succ k => exact .inr ⟨k, by simpa using hk, col, hc, by simpa using hb, by rw [Nat.add_right_comm, Nat.add_assoc]⟩

theorem wrapColumn_val (x0 col : Nat) : (wrapColumn x0 col).val = (x0 + col) % 64 := rfl

theorem wrapRow_val (y0 row : Nat) : (wrapRow y0 row).val = (y0 + row) % 32 := rfl

/-- No cell of a sprite of at most 32 rows is selected twice. -/
theorem spriteCells_nodup (x0 y0 row : Nat) (bs : List Byte) (h : bs.length ≤ 32) :
    (spriteCells x0 y0 row bs).Nodup := by
  induction bs generalizing row with
  | nil => simp [spriteCells]
  | cons b bs ih =>
    simp only [List.length_cons] at h
    rw [spriteCells, List.nodup_append]
    refine ⟨?_, ih (row + 1) (by omega), ?_⟩
    · refine List.Nodup.map_on ?_ (List.Nodup.filter _ List.nodup_range)
      intro c hc d hd e
      have hc' := List.mem_range.mp (List.mem_of_mem_filter hc)
      have hd' := List.mem_range.mp (List.mem_of_mem_filter hd)
      have := congrArg (fun p : Cell => p.1.val) e
      simp only [wrapColumn_val] at this
      omega
    · intro p hp q hq e
      obtain ⟨_, _, _, rfl⟩ := mem_rowCells.mp hp
      obtain ⟨k, hk, _, _, _, rfl⟩ := mem_spriteCells.mp hq
      have := congrArg (fun p : Cell => p.2.val) e
      simp only [wrapRow_val] at this
      omega

/-- A sprite of at most 32 rows drawn on a framebuffer: the selected cells are toggled, the others stay. -/
theorem drawRows_pixel (x0 y0 : Nat) (bs : List Byte) (fb : Framebuffer) (h : bs.length ≤ 32) (p : Cell) :
    (drawRows x0 y0 0 bs (fb, false)).1.pixel p.1 p.2 =
      if p ∈ spriteCells x0 y0 0 bs then !fb.pixel p.1 p.2 else fb.pixel p.1 p.2 := by
  rw [drawRows_eq]
  exact (touch_all _ (fb, false) (spriteCells_nodup x0 y0 0 bs h)).1 p

/-- The collision: some selected cell was on. -/
theorem drawRows_collision (x0 y0 : Nat) (bs : List Byte) (fb : Framebuffer) (h : bs.length ≤ 32) :
    (drawRows x0 y0 0 bs (fb, false)).2 = true ↔ ∃ p ∈ spriteCells x0 y0 0 bs, fb.pixel p.1 p.2 = true := by
  rw [drawRows_eq, (touch_all _ (fb, false) (spriteCells_nodup x0 y0 0 bs h)).2]
  simp

end Sys2Proof.Machine
end

