-- ==== Sys2Proof/Laws/Execute.lean ====
section
/-! SUPPORT. What an execute phase and a step can do, said once: `exec_cases` takes an execute phase apart into the state
its instruction makes and a raise, and `step_cases` a step into fetch, execute phase and tick. -/

namespace Sys2Proof.Machine

/-- The sprite bytes DXYN reads. -/
def State.spriteBytes (s : State) (n : BitVec 4) : List Byte :=
  (List.range n.toNat).map (fun k => s.peek (s.i.toNat + k))

/-- The state an instruction's own effect makes, where it raises nothing. -/
def Completes (i : Instr) (s t : State) : Prop :=
  match i with
  | .cls => t = (s.setDisplay Framebuffer.blank).advance
  | .ret => ∃ h : 0 < s.sp.val,
      t = ({ s with sp := ⟨s.sp.val - 1, by omega⟩ } : State).setPc (s.stack[s.sp.val - 1] + 2)
  | .call nnn => ∃ h : s.sp.val < 16,
      t = ({ s with stack := s.stack.set s.sp.val s.pc h, sp := ⟨s.sp.val + 1, by omega⟩ } : State).setPc (zextAddr nnn)
  | .drw x y n => (n.toNat = 0 ∨ s.i.toNat + n.toNat ≤ 4096) ∧
      t = ((s.setDisplay (s.drawSprite x y (s.spriteBytes n)).1).setFlag (s.drawSprite x y (s.spriteBytes n)).2).advance
  | .ldB x => s.i.toNat + 3 ≤ 4096 ∧ t = (s.pokeAll s.i.toNat (bcdDigits (s.getV x))).advance
  | .ldMemVx x => s.i.toNat + (x.val + 1) ≤ 4096 ∧
      t = ((s.pokeAll s.i.toNat (s.firstRegs x)).setI (s.indexPast x)).advance
  | .ldVxMem x => s.i.toNat + (x.val + 1) ≤ 4096 ∧
      t = ((s.setFirstRegs ((List.range (x.val + 1)).map (fun k => s.peek (s.i.toNat + k)))).setI (s.indexPast x)).advance
  | .skp x => ∃ h : (s.v[x]).toNat < 16, t = s.skipIf s.keys[(s.v[x]).toNat]
  | .sknp x => ∃ h : (s.v[x]).toNat < 16, t = s.skipIf (!s.keys[(s.v[x]).toNat])
  | .ldVxK x => (s.pressedKeys = [] ∧ t = s) ∨
      ∃ k : Key, selectKey s.pressedKeys = some k ∧ t = (s.setV x (BitVec.ofNat 8 k.val)).advance
  | j => exec j s = .next t

/-- An execute phase always answers a next state. -/
theorem exec_answers (i : Instr) (s : State) : ∃ t, exec i s = .next t := by
  have fin {α : Type} (r : Except Report α) (k : α → State) : ∃ t, s.finish r k = .next t := by
    cases r <;> exact ⟨_, rfl⟩
  cases i
  case ldVxK x => simp only [exec, execLdVxK]; split <;> exact ⟨_, rfl⟩
  all_goals first | exact ⟨_, rfl⟩ | exact fin _ _

/-- An execute phase completes with its instruction's own effect, or raises and changes nothing else. -/
theorem exec_cases {i : Instr} {s t : State} (h : exec i s = .next t) :
    Completes i s t ∨ ∃ c, t = s.raise c := by
  cases i
  case ret =>
    obtain ⟨a, h1, rfl⟩ | ⟨c, -, rfl⟩ := State.finish_cases h
    · by_cases h0 : 0 < s.sp.val
      · rw [State.popStack_ok h0] at h1; cases h1; exact .inl ⟨h0, rfl⟩
      · rw [State.popStack_error (by omega)] at h1; cases h1
    · exact .inr ⟨c, rfl⟩
  case call nnn =>
    obtain ⟨a, h1, rfl⟩ | ⟨c, -, rfl⟩ := State.finish_cases h
    · by_cases h0 : s.sp.val < 16
      · rw [State.pushPc_ok h0] at h1; cases h1; exact .inl ⟨h0, rfl⟩
      · rw [State.pushPc_error (by omega)] at h1; cases h1
    · exact .inr ⟨c, rfl⟩
  case drw x y n =>
    obtain ⟨a, h1, rfl⟩ | ⟨c, -, rfl⟩ := State.finish_cases h
    · by_cases h0 : n.toNat = 0 ∨ s.i.toNat + n.toNat ≤ 4096
      · rw [State.readBlock_ok h0] at h1; cases h1; exact .inl ⟨h0, rfl⟩
      · rw [State.readBlock_error (by omega) (by omega)] at h1; cases h1
    · exact .inr ⟨c, rfl⟩
  case ldVxMem x =>
    obtain ⟨a, h1, rfl⟩ | ⟨c, -, rfl⟩ := State.finish_cases h
    · by_cases h0 : s.i.toNat + (x.val + 1) ≤ 4096
      · rw [State.readBlock_ok (.inr h0)] at h1; cases h1; exact .inl ⟨h0, rfl⟩
      · rw [State.readBlock_error (by omega) (by omega)] at h1; cases h1
    · exact .inr ⟨c, rfl⟩
  case ldMemVx x =>
    obtain ⟨a, h1, rfl⟩ | ⟨c, -, rfl⟩ := State.finish_cases h
    · by_cases h0 : s.i.toNat + (s.firstRegs x).length ≤ 4096
      · rw [State.writeBlock_ok h0] at h1; cases h1; exact .inl ⟨by simpa using h0, rfl⟩
      · rw [State.writeBlock_error (by omega) (fun e => by simpa using congrArg List.length e)] at h1; cases h1
    · exact .inr ⟨c, rfl⟩
  case ldB x =>
    obtain ⟨a, h1, rfl⟩ | ⟨c, -, rfl⟩ := State.finish_cases h
    · by_cases h0 : s.i.toNat + (bcdDigits (s.getV x)).length ≤ 4096
      · rw [State.writeBlock_ok h0] at h1; cases h1; exact .inl ⟨by simpa [bcdDigits] using h0, rfl⟩
      · rw [State.writeBlock_error (by omega) (by simp [bcdDigits])] at h1; cases h1
    · exact .inr ⟨c, rfl⟩
  case skp x =>
    obtain ⟨a, h1, rfl⟩ | ⟨c, -, rfl⟩ := State.finish_cases h
    · by_cases h0 : (s.v[x]).toNat < 16
      · rw [State.keyAt_ok h0] at h1; cases h1; exact .inl ⟨h0, rfl⟩
      · rw [State.keyAt_error (by omega)] at h1; cases h1
    · exact .inr ⟨c, rfl⟩
  case sknp x =>
    obtain ⟨a, h1, rfl⟩ | ⟨c, -, rfl⟩ := State.finish_cases h
    · by_cases h0 : (s.v[x]).toNat < 16
      · rw [State.keyAt_ok h0] at h1; cases h1; exact .inl ⟨h0, rfl⟩
      · rw [State.keyAt_error (by omega)] at h1; cases h1
    · exact .inr ⟨c, rfl⟩
  case ldVxK x =>
    simp only [exec, execLdVxK] at h
    split at h
    · next hk => cases h; exact .inl (.inl ⟨selectKey_eq_none.mp hk, rfl⟩)
    · next k hk => cases h; exact .inl (.inr ⟨k, hk, rfl⟩)
  case cls => injection h with h; exact .inl h.symm
  all_goals exact .inl h

/-! ## The step -/

theorem step_of_fetch {s : State} {i : Instr} (h : s.fetchInstr = .ok i) :
    step s = tickAfter (exec i s.startStep) := by
  rw [step, show s.startStep.fetchInstr = .ok i from h]

theorem step_of_error {s : State} {c : Report} (h : s.fetchInstr = .error c) :
    step s = .next (s.startStep.raise c).tick := by
  rw [step, show s.startStep.fetchInstr = .error c from h]; rfl

/-- An instruction was fetched, so both its bytes exist. -/
theorem pc_of_fetch {s : State} {i : Instr} (h : s.fetchInstr = .ok i) : s.pc.toNat ≤ 0xFFE := by
  by_contra hc
  rw [State.fetchInstr, State.fetch_error (by omega)] at h
  cases h

/-- A step is a fetched instruction's execute phase and a tick, or a report of fetch or decode and a tick. -/
theorem step_cases {s t : State} (h : step s = .next t) :
    (∃ i u, s.fetchInstr = .ok i ∧ exec i s.startStep = .next u ∧ t = u.tick) ∨
      ∃ c, s.fetchInstr = .error c ∧ t = (s.startStep.raise c).tick := by
  cases hf : s.fetchInstr with
  | ok i =>
    rw [step_of_fetch hf] at h
    obtain ⟨u, hu, rfl⟩ := tickAfter_eq_next h
    exact .inl ⟨i, u, rfl, hu, rfl⟩
  | error c =>
    rw [step_of_error hf] at h
    injection h with h
    exact .inr ⟨c, rfl, h.symm⟩

end Sys2Proof.Machine
end

