-- ==== Sys2Proof/Laws/PerInstr.lean ====
section
/-! SUPPORT. Statements made of every instruction, one lemma per constructor. -/

namespace Sys2Proof.Laws.EncodesItsRow

/-- The instruction's row is one of the opcode map, and the word the encoder makes has the row's fixed bits
(30_encoding.md R64, R65). -/
def Statement (i : Instr) : Prop := i.row ∈ opcodeTable ∧ i.row.matches (encode i) = true

/-- A word that is the row's match under the row's mask matches the row. -/
theorem matches_of_mask {r : Row} {w : Word} (h : w &&& r.mask = r.pattern) : r.matches w = true := by
  simp [Row.matches, h]

theorem cls : Statement .cls :=
  ⟨by simp [Instr.row, opcodeTable, flowRows, aluRows, middleRows, fRows], matches_of_mask (rfl)⟩

theorem ret : Statement .ret :=
  ⟨by simp [Instr.row, opcodeTable, flowRows, aluRows, middleRows, fRows], matches_of_mask (rfl)⟩

theorem jp (nnn : BitVec 12) : Statement (.jp nnn) :=
  ⟨by simp [Instr.row, opcodeTable, flowRows, aluRows, middleRows, fRows], matches_of_mask (wordNNN_mask _ nnn)⟩

theorem call (nnn : BitVec 12) : Statement (.call nnn) :=
  ⟨by simp [Instr.row, opcodeTable, flowRows, aluRows, middleRows, fRows], matches_of_mask (wordNNN_mask _ nnn)⟩

theorem seImm (x : Reg) (nn : Byte) : Statement (.seImm x nn) :=
  ⟨by simp [Instr.row, opcodeTable, flowRows, aluRows, middleRows, fRows], matches_of_mask (wordXNN_mask _ x nn)⟩

theorem sneImm (x : Reg) (nn : Byte) : Statement (.sneImm x nn) :=
  ⟨by simp [Instr.row, opcodeTable, flowRows, aluRows, middleRows, fRows], matches_of_mask (wordXNN_mask _ x nn)⟩

theorem seReg (x y : Reg) : Statement (.seReg x y) :=
  ⟨by simp [Instr.row, opcodeTable, flowRows, aluRows, middleRows, fRows], matches_of_mask (wordXYN_mask _ x y _)⟩

theorem ldImm (x : Reg) (nn : Byte) : Statement (.ldImm x nn) :=
  ⟨by simp [Instr.row, opcodeTable, flowRows, aluRows, middleRows, fRows], matches_of_mask (wordXNN_mask _ x nn)⟩

theorem addImm (x : Reg) (nn : Byte) : Statement (.addImm x nn) :=
  ⟨by simp [Instr.row, opcodeTable, flowRows, aluRows, middleRows, fRows], matches_of_mask (wordXNN_mask _ x nn)⟩

theorem ldReg (x y : Reg) : Statement (.ldReg x y) :=
  ⟨by simp [Instr.row, opcodeTable, flowRows, aluRows, middleRows, fRows], matches_of_mask (wordXYN_mask _ x y _)⟩

theorem or (x y : Reg) : Statement (.or x y) :=
  ⟨by simp [Instr.row, opcodeTable, flowRows, aluRows, middleRows, fRows], matches_of_mask (wordXYN_mask _ x y _)⟩

theorem and (x y : Reg) : Statement (.and x y) :=
  ⟨by simp [Instr.row, opcodeTable, flowRows, aluRows, middleRows, fRows], matches_of_mask (wordXYN_mask _ x y _)⟩

theorem xor (x y : Reg) : Statement (.xor x y) :=
  ⟨by simp [Instr.row, opcodeTable, flowRows, aluRows, middleRows, fRows], matches_of_mask (wordXYN_mask _ x y _)⟩

theorem addReg (x y : Reg) : Statement (.addReg x y) :=
  ⟨by simp [Instr.row, opcodeTable, flowRows, aluRows, middleRows, fRows], matches_of_mask (wordXYN_mask _ x y _)⟩

theorem sub (x y : Reg) : Statement (.sub x y) :=
  ⟨by simp [Instr.row, opcodeTable, flowRows, aluRows, middleRows, fRows], matches_of_mask (wordXYN_mask _ x y _)⟩

theorem shr (x y : Reg) : Statement (.shr x y) :=
  ⟨by simp [Instr.row, opcodeTable, flowRows, aluRows, middleRows, fRows], matches_of_mask (wordXYN_mask _ x y _)⟩

theorem subn (x y : Reg) : Statement (.subn x y) :=
  ⟨by simp [Instr.row, opcodeTable, flowRows, aluRows, middleRows, fRows], matches_of_mask (wordXYN_mask _ x y _)⟩

theorem shl (x y : Reg) : Statement (.shl x y) :=
  ⟨by simp [Instr.row, opcodeTable, flowRows, aluRows, middleRows, fRows], matches_of_mask (wordXYN_mask _ x y _)⟩

theorem sneReg (x y : Reg) : Statement (.sneReg x y) :=
  ⟨by simp [Instr.row, opcodeTable, flowRows, aluRows, middleRows, fRows], matches_of_mask (wordXYN_mask _ x y _)⟩

theorem ldI (nnn : BitVec 12) : Statement (.ldI nnn) :=
  ⟨by simp [Instr.row, opcodeTable, flowRows, aluRows, middleRows, fRows], matches_of_mask (wordNNN_mask _ nnn)⟩

theorem jpV0 (nnn : BitVec 12) : Statement (.jpV0 nnn) :=
  ⟨by simp [Instr.row, opcodeTable, flowRows, aluRows, middleRows, fRows], matches_of_mask (wordNNN_mask _ nnn)⟩

theorem rnd (x : Reg) (nn : Byte) : Statement (.rnd x nn) :=
  ⟨by simp [Instr.row, opcodeTable, flowRows, aluRows, middleRows, fRows], matches_of_mask (wordXNN_mask _ x nn)⟩

theorem drw (x y : Reg) (n : BitVec 4) : Statement (.drw x y n) :=
  ⟨by simp [Instr.row, opcodeTable, flowRows, aluRows, middleRows, fRows], matches_of_mask (wordXYN_maskOp _ x y n)⟩

theorem skp (x : Reg) : Statement (.skp x) :=
  ⟨by simp [Instr.row, opcodeTable, flowRows, aluRows, middleRows, fRows], matches_of_mask (wordXNN_maskX _ x _)⟩

theorem sknp (x : Reg) : Statement (.sknp x) :=
  ⟨by simp [Instr.row, opcodeTable, flowRows, aluRows, middleRows, fRows], matches_of_mask (wordXNN_maskX _ x _)⟩

theorem ldVxDt (x : Reg) : Statement (.ldVxDt x) :=
  ⟨by simp [Instr.row, opcodeTable, flowRows, aluRows, middleRows, fRows], matches_of_mask (wordXNN_maskX _ x _)⟩

theorem ldVxK (x : Reg) : Statement (.ldVxK x) :=
  ⟨by simp [Instr.row, opcodeTable, flowRows, aluRows, middleRows, fRows], matches_of_mask (wordXNN_maskX _ x _)⟩

theorem ldDtVx (x : Reg) : Statement (.ldDtVx x) :=
  ⟨by simp [Instr.row, opcodeTable, flowRows, aluRows, middleRows, fRows], matches_of_mask (wordXNN_maskX _ x _)⟩

theorem ldStVx (x : Reg) : Statement (.ldStVx x) :=
  ⟨by simp [Instr.row, opcodeTable, flowRows, aluRows, middleRows, fRows], matches_of_mask (wordXNN_maskX _ x _)⟩

theorem addI (x : Reg) : Statement (.addI x) :=
  ⟨by simp [Instr.row, opcodeTable, flowRows, aluRows, middleRows, fRows], matches_of_mask (wordXNN_maskX _ x _)⟩

theorem ldF (x : Reg) : Statement (.ldF x) :=
  ⟨by simp [Instr.row, opcodeTable, flowRows, aluRows, middleRows, fRows], matches_of_mask (wordXNN_maskX _ x _)⟩

theorem ldB (x : Reg) : Statement (.ldB x) :=
  ⟨by simp [Instr.row, opcodeTable, flowRows, aluRows, middleRows, fRows], matches_of_mask (wordXNN_maskX _ x _)⟩

theorem ldMemVx (x : Reg) : Statement (.ldMemVx x) :=
  ⟨by simp [Instr.row, opcodeTable, flowRows, aluRows, middleRows, fRows], matches_of_mask (wordXNN_maskX _ x _)⟩

theorem ldVxMem (x : Reg) : Statement (.ldVxMem x) :=
  ⟨by simp [Instr.row, opcodeTable, flowRows, aluRows, middleRows, fRows], matches_of_mask (wordXNN_maskX _ x _)⟩

end Sys2Proof.Laws.EncodesItsRow
end

