-- ==== Sys2Proof/Tests/Slice0.lean ====
section
/-! SUPPORT. Tests of the model, one step each on a small state, with expected values taken from the spec's own examples and
vectors (95_test_vectors.md, named by their ids) or computed by hand from the rules; words decoded from the spec's encodings;
ill-formed words; and, for every obligation that has hypotheses, a state that meets them. -/

namespace Sys2Proof.Tests

open Sys2Proof.Machine Sys2Proof.Claims

/-! ## Helpers -/

/-- Registers with these values and 0 elsewhere. -/
def regs (l : List (Reg × Byte)) : Vector Byte 16 := l.foldl (fun v p => v.set p.1 p.2) (Vector.replicate 16 0)

/-- The reset state with these registers. -/
def withRegs (l : List (Reg × Byte)) : State := { State.reset with v := regs l }

/-- A key latch with these keys pressed. -/
def pressing (l : List Key) : Vector Bool 16 := l.foldl (fun v k => v.set k.val true k.isLt) (Vector.replicate 16 false)

/-- The state after one step that executes this word. -/
def stepOn (s : State) (w : Word) : Option State :=
  match step (s.withFetchWord 16 w.toNat) with
  | .next t => some t
  | _ => none

/-- The state after one step of the state as it is. -/
def stepped (s : State) : Option State :=
  match step s with
  | .next t => some t
  | _ => none

/-! ## Decoding: the pattern's digits written out (30_encoding.md R65) -/

/-- Control transfer. -/
theorem test_decode_flow :
    decodeWord 0x00EE = .ok .ret ∧ decodeWord 0x1ABC = .ok (.jp 0xABC) ∧ decodeWord 0x2204 = .ok (.call 0x204) ∧
    decodeWord 0x3A42 = .ok (.seImm 10 0x42) ∧ decodeWord 0x4B43 = .ok (.sneImm 11 0x43) ∧
    decodeWord 0x5120 = .ok (.seReg 1 2) ∧ decodeWord 0x9120 = .ok (.sneReg 1 2) ∧
    decodeWord 0xBFFE = .ok (.jpV0 0xFFE) := by decide

/-- Register load, arithmetic, logic, shift, random. -/
theorem test_decode_alu :
    decodeWord 0x6A55 = .ok (.ldImm 10 0x55) ∧ decodeWord 0x7203 = .ok (.addImm 2 0x03) ∧
    decodeWord 0x8120 = .ok (.ldReg 1 2) ∧ decodeWord 0x8121 = .ok (.or 1 2) ∧ decodeWord 0x8122 = .ok (.and 1 2) ∧
    decodeWord 0x8123 = .ok (.xor 1 2) ∧ decodeWord 0x8124 = .ok (.addReg 1 2) ∧ decodeWord 0x8125 = .ok (.sub 1 2) ∧
    decodeWord 0x8126 = .ok (.shr 1 2) ∧ decodeWord 0x8127 = .ok (.subn 1 2) ∧ decodeWord 0x812E = .ok (.shl 1 2) ∧
    decodeWord 0xC30F = .ok (.rnd 3 0x0F) := by decide

/-- Index register, BCD, register blocks, display. -/
theorem test_decode_index_display :
    decodeWord 0xA2F0 = .ok (.ldI 0x2F0) ∧ decodeWord 0xF11E = .ok (.addI 1) ∧ decodeWord 0xF429 = .ok (.ldF 4) ∧
    decodeWord 0xF733 = .ok (.ldB 7) ∧ decodeWord 0xFF55 = .ok (.ldMemVx 15) ∧ decodeWord 0xF265 = .ok (.ldVxMem 2) ∧
    decodeWord 0x00E0 = .ok .cls ∧ decodeWord 0xD12F = .ok (.drw 1 2 0xF) := by decide

/-- Keys and timers. -/
theorem test_decode_keys_timers :
    decodeWord 0xE59E = .ok (.skp 5) ∧ decodeWord 0xE5A1 = .ok (.sknp 5) ∧ decodeWord 0xF307 = .ok (.ldVxDt 3) ∧
    decodeWord 0xF20A = .ok (.ldVxK 2) ∧ decodeWord 0xF015 = .ok (.ldDtVx 0) ∧ decodeWord 0xFA18 = .ok (.ldStVx 10) := by
  decide

/-- The first byte is the most significant, and what follows the two bytes is left over (95_test_vectors.md E8). -/
theorem test_decode_bytes :
    decode [0x60, 0x0A, 0x12] = .ok (.ldImm 0 0x0A, [0x12]) ∧ decode [0x60] = .error .truncated ∧
    decodeTableWord 16 0x600A = some (.ldImm 0 0x0A) := by decide

/-! ## Well-formedness: an ill-formed word of each family is refused, by the table and by the decoder (U1 to U12) -/

theorem test_refused_family_0 :
    recognised 0x0000 = false ∧ recognised 0x0123 = false ∧ recognised 0x00E1 = false ∧
    decodeWord 0x0000 = .error (.unknownOpcode 0x0000) ∧ decodeWord 0x0123 = .error (.unknownOpcode 0x0123) ∧
    decodeWord 0x00E1 = .error (.unknownOpcode 0x00E1) ∧ decodeWord 0x00FF = .error (.unknownOpcode 0x00FF) := by decide

theorem test_refused_families_5_8_9 :
    recognised 0x5121 = false ∧ recognised 0x8018 = false ∧ recognised 0x912F = false ∧
    decodeWord 0x5121 = .error (.unknownOpcode 0x5121) ∧ decodeWord 0x8018 = .error (.unknownOpcode 0x8018) ∧
    decodeWord 0x801F = .error (.unknownOpcode 0x801F) ∧ decodeWord 0x912F = .error (.unknownOpcode 0x912F) := by decide

theorem test_refused_families_E_F :
    recognised 0xE19F = false ∧ recognised 0xF1FF = false ∧
    decodeWord 0xE19F = .error (.unknownOpcode 0xE19F) ∧ decodeWord 0xF1FF = .error (.unknownOpcode 0xF1FF) ∧
    decodeWord 0xF000 = .error (.unknownOpcode 0xF000) ∧ decodeWord 0xFF75 = .error (.unknownOpcode 0xFF75) := by decide

/-! ## One step: control transfer -/

/-- F1. -/
theorem test_jp : (stepOn .reset 0x1ABC).map (·.pc) = some 0xABC := rfl

/-- F10: the sixteenth push. -/
theorem test_call : (stepOn { State.reset with sp := 15 } 0x2300).map (fun t => (t.stack[15], t.sp, t.pc)) =
    some (0x200, 16, 0x300) := rfl

/-- F9. -/
theorem test_call_overflow : (stepOn { State.reset with sp := 16 } 0x2300).map (fun t => (t.sp, t.pc, t.report)) =
    some (16, 0x200, some (.stackOverflow 0x200)) := rfl

/-- F7: resuming 2 past the address pushed. -/
theorem test_ret : (stepOn { State.reset with sp := 1, stack := State.reset.stack.set 0 0x300, pc := 0x204 } 0x00EE).map
    (fun t => (t.sp, t.pc, t.stack[0])) = some (0, 0x302, 0x300) := rfl

/-- F8. -/
theorem test_ret_underflow : (stepOn .reset 0x00EE).map (fun t => (t.sp, t.pc, t.report)) =
    some (0, 0x200, some (.stackUnderflow 0x200)) := rfl

/-- F11, F12. -/
theorem test_se_imm : (stepOn (withRegs [(3, 0x42)]) 0x3342).map (·.pc) = some 0x204 ∧
    (stepOn (withRegs [(3, 0x42)]) 0x3343).map (·.pc) = some 0x202 := ⟨rfl, rfl⟩

/-- F13, F14. -/
theorem test_sne_imm : (stepOn (withRegs [(3, 0x42)]) 0x4342).map (·.pc) = some 0x202 ∧
    (stepOn (withRegs [(3, 0x42)]) 0x4343).map (·.pc) = some 0x204 := ⟨rfl, rfl⟩

/-- F15, F16. -/
theorem test_se_reg : (stepOn (withRegs [(1, 7), (2, 7)]) 0x5120).map (·.pc) = some 0x204 ∧
    (stepOn (withRegs [(1, 7), (3, 8)]) 0x5130).map (·.pc) = some 0x202 := ⟨rfl, rfl⟩

/-- F18, F19. -/
theorem test_sne_reg : (stepOn (withRegs [(1, 7), (2, 7)]) 0x9120).map (·.pc) = some 0x202 ∧
    (stepOn (withRegs [(1, 7), (3, 8)]) 0x9130).map (·.pc) = some 0x204 := ⟨rfl, rfl⟩

/-- F22: the target is not reduced to 12 bits. -/
theorem test_jp_v0 : (stepOn (withRegs [(0, 0xFF)]) 0xBFFF).map (·.pc) = some 0x10FE := rfl

/-! ## One step: register load, arithmetic, logic, shift, random -/

/-- E1. -/
theorem test_ld_imm : (stepOn .reset 0x6A55).map (fun t => (t.v[10], t.pc)) = some (0x55, 0x202) := rfl

/-- A1: no carry flag. -/
theorem test_add_imm : (stepOn (withRegs [(2, 0xFE), (15, 1)]) 0x7203).map (fun t => (t.v[2], t.v[15])) =
    some (0x01, 0x01) := rfl

/-- A34. -/
theorem test_ld_reg : (stepOn (withRegs [(1, 0x37)]) 0x8010).map (fun t => (t.v[0], t.v[1])) = some (0x37, 0x37) :=
  rfl

/-- A30. -/
theorem test_or : (stepOn (withRegs [(0, 0x0F), (1, 0xF0), (15, 1)]) 0x8011).map (fun t => (t.v[0], t.v[15])) =
    some (0xFF, 0x01) := rfl

/-- A31. -/
theorem test_and : (stepOn (withRegs [(0, 0x3C), (1, 0x0F), (15, 1)]) 0x8012).map (fun t => (t.v[0], t.v[15])) =
    some (0x0C, 0x01) := rfl

/-- A32. -/
theorem test_xor : (stepOn (withRegs [(0, 0xFF), (1, 0x0F), (15, 1)]) 0x8013).map (fun t => (t.v[0], t.v[15])) =
    some (0xF0, 0x01) := rfl

/-- A3, A5. -/
theorem test_add_reg : (stepOn (withRegs [(0, 0xF0), (1, 0x20)]) 0x8014).map (fun t => (t.v[0], t.v[15])) =
    some (0x10, 0x01) ∧
    (stepOn (withRegs [(0, 0x7F), (1, 0x80), (15, 1)]) 0x8014).map (fun t => (t.v[0], t.v[15])) = some (0xFF, 0x00) :=
  ⟨rfl, rfl⟩

/-- A7, A9: VF as destination and as source. -/
theorem test_add_reg_vf : (stepOn (withRegs [(15, 0xF0), (1, 0x20)]) 0x8F14).map (fun t => (t.v[15], t.v[1])) =
    some (0x01, 0x20) ∧
    (stepOn (withRegs [(0, 0x01), (15, 0xFF)]) 0x80F4).map (fun t => (t.v[0], t.v[15])) = some (0x00, 0x01) :=
  ⟨rfl, rfl⟩

/-- A10, A12. -/
theorem test_sub : (stepOn (withRegs [(0, 0x05), (1, 0x07)]) 0x8015).map (fun t => (t.v[0], t.v[15])) =
    some (0xFE, 0x00) ∧
    (stepOn (withRegs [(0, 0x07), (1, 0x07)]) 0x8015).map (fun t => (t.v[0], t.v[15])) = some (0x00, 0x01) :=
  ⟨rfl, rfl⟩

/-- A16, A21: Y is ignored; VF as the operand. -/
theorem test_shr : (stepOn (withRegs [(2, 0x05), (3, 0xAA)]) 0x8236).map (fun t => (t.v[2], t.v[15], t.v[3])) =
    some (0x02, 0x01, 0xAA) ∧ (stepOn (withRegs [(15, 0x02)]) 0x8F06).map (fun t => t.v[15]) = some 0x00 :=
  ⟨rfl, rfl⟩

/-- A22, A23. -/
theorem test_subn : (stepOn (withRegs [(0, 0x05), (1, 0x07)]) 0x8017).map (fun t => (t.v[0], t.v[15])) =
    some (0x02, 0x01) ∧
    (stepOn (withRegs [(0, 0x07), (1, 0x05)]) 0x8017).map (fun t => (t.v[0], t.v[15])) = some (0xFE, 0x00) :=
  ⟨rfl, rfl⟩

/-- A25, A29. -/
theorem test_shl : (stepOn (withRegs [(2, 0x81), (3, 0x55)]) 0x823E).map (fun t => (t.v[2], t.v[15], t.v[3])) =
    some (0x02, 0x01, 0x55) ∧ (stepOn (withRegs [(15, 0x7F)]) 0x8F0E).map (fun t => t.v[15]) = some 0x00 :=
  ⟨rfl, rfl⟩

/-- A35 with the draw left free: the byte under the mask, and one draw taken. -/
theorem test_rnd : (stepOn .reset 0xC30F).map (fun t => (t.v[3], t.draws)) = some (Config.randByte 0 &&& 0x0F, 1) := rfl

/-! ## One step: index register, BCD, register blocks -/

/-- M1. -/
theorem test_ld_i : (stepOn .reset 0xA2F0).map (·.i) = some 0x2F0 := rfl

/-- M4, M6: the sum is not masked to 12 bits, and the flag is of the true sum. -/
theorem test_add_i : (stepOn { withRegs [(1, 1)] with i := 0xFFF } 0xF11E).map (fun t => (t.i, t.v[15])) =
    some (0x1000, 0x01) ∧
    (stepOn { withRegs [(1, 1)] with i := 0xFFFF } 0xF11E).map (fun t => (t.i, t.v[15])) = some (0x0000, 0x01) :=
  ⟨rfl, rfl⟩

/-- M8: the old VF is the addend. -/
theorem test_add_i_vf : (stepOn { withRegs [(15, 0x20)] with i := 0x100 } 0xFF1E).map (fun t => (t.i, t.v[15])) =
    some (0x120, 0x00) := rfl

/-- M10, M13. -/
theorem test_ld_f : (stepOn (withRegs [(4, 0x0A)]) 0xF429).map (·.i) = some 0x32 ∧
    (stepOn (withRegs [(4, 0xFF)]) 0xF429).map (·.i) = some 0x4FB := ⟨rfl, rfl⟩

/-- M19. -/
theorem test_ld_b : (stepOn { withRegs [(0, 199)] with i := 0xFFD } 0xF033).map
    (fun t => (t.peek 0xFFD, t.peek 0xFFE, t.peek 0xFFF, t.i)) = some (1, 9, 9, 0xFFD) := rfl

/-- M20: nothing is written, not even the bytes in range. -/
theorem test_ld_b_bounds : (stepOn { withRegs [(0, 199)] with i := 0xFFE } 0xF033).map
    (fun t => (t.peek 0xFFE, t.peek 0xFFF, t.pc, t.report)) = some (0, 0, 0x200, some (.memoryBounds 0x1000)) :=
  rfl

/-- M24: registers 0 to X inclusive, and `I` past them. -/
theorem test_ld_mem_vx : (stepOn { withRegs [(0, 0x10), (1, 0x11), (2, 0x12), (3, 0x13)] with i := 0x400 } 0xF255).map
    (fun t => (t.peek 0x400, t.peek 0x401, t.peek 0x402, t.peek 0x403, t.i)) = some (0x10, 0x11, 0x12, 0x00, 0x403) :=
  rfl

/-- M27. -/
theorem test_ld_mem_vx_bounds : (stepOn { withRegs [(0, 0x10)] with i := 0xFF1 } 0xFF55).map
    (fun t => (t.peek 0xFF1, t.i, t.report)) = some (0, 0xFF1, some (.memoryBounds 0x1000)) := rfl

/-- M28. -/
theorem test_ld_vx_mem : (stepOn { State.reset.pokeAll 0x300 [0xA0, 0xA1, 0xA2, 0xA3] with i := 0x300 } 0xF265).map
    (fun t => (t.v[0], t.v[1], t.v[2], t.v[3], t.i)) = some (0xA0, 0xA1, 0xA2, 0x00, 0x303) := rfl

/-- M32. -/
theorem test_ld_vx_mem_bounds : (stepOn { withRegs [(0, 1), (1, 2)] with i := 0xFFF } 0xF165).map
    (fun t => (t.v[0], t.v[1], t.i, t.report)) = some (1, 2, 0xFFF, some (.memoryBounds 0x1000)) := rfl

/-! ## One step: display -/

/-- D12. -/
theorem test_cls : (stepOn { withRegs [(15, 1)] with fb := State.reset.fb.toggle 5 0, dirty := false } 0x00E0).map
    (fun t => (t.fb[0][5], t.dirty, t.v[15], t.pc)) = some (false, true, 1, 0x202) := rfl

/-- D1: wrapped on both axes. -/
theorem test_drw_wraps : (stepOn { (withRegs [(0, 0x3F), (1, 0x1F)]).poke 0x300 0xC0 with i := 0x300 } 0xD011).map
    (fun t => (t.fb[31][63], t.fb[31][0], t.fb[31][1], t.fb[0][0], t.v[15], t.dirty)) =
    some (true, true, false, false, 0, true) := rfl

/-- D10 and a collision: the coordinate is read before VF is written. -/
theorem test_drw_vf : (stepOn { (withRegs [(15, 5), (0, 2)]).poke 0x300 0x80 with i := 0x300 } 0xDF01).map
    (fun t => (t.fb[2][5], t.fb[2][0], t.v[15])) = some (true, false, 0) ∧
    (stepOn { (withRegs [(15, 5), (0, 2)]).poke 0x300 0xC0 with i := 0x300, fb := State.reset.fb.toggle 5 2 } 0xDF01).map
      (fun t => (t.fb[2][5], t.fb[2][6], t.v[15])) = some (false, true, 1) := ⟨rfl, rfl⟩

/-! ## One step: keys and timers -/

/-- K1, K2. -/
theorem test_skp : (stepOn { withRegs [(5, 7)] with keys := pressing [7] } 0xE59E).map (·.pc) = some 0x204 ∧
    (stepOn (withRegs [(5, 7)]) 0xE59E).map (·.pc) = some 0x202 := ⟨rfl, rfl⟩

/-- K5. -/
theorem test_skp_range : (stepOn (withRegs [(5, 0x10)]) 0xE59E).map (fun t => (t.pc, t.report)) =
    some (0x200, some (.keyIndexRange 0x200 0x10)) := rfl

/-- K3, K4. -/
theorem test_sknp : (stepOn { withRegs [(5, 7)] with keys := pressing [7] } 0xE5A1).map (·.pc) = some 0x202 ∧
    (stepOn (withRegs [(5, 7)]) 0xE5A1).map (·.pc) = some 0x204 := ⟨rfl, rfl⟩

/-- K10: read, then tick. -/
theorem test_ld_vx_dt : (stepOn { State.reset with dt := 0x2A } 0xF307).map (fun t => (t.v[3], t.dt)) =
    some (0x2A, 0x29) := rfl

/-- K7. -/
theorem test_ld_vx_k_waits : (stepOn (withRegs [(2, 0x55)]) 0xF20A).map (fun t => (t.v[2], t.pc, t.report)) =
    some (0x55, 0x200, none) := rfl

/-- K8. -/
theorem test_ld_vx_k : (stepOn { State.reset with keys := pressing [7] } 0xF20A).map (fun t => (t.v[2], t.pc)) =
    some (0x07, 0x202) := rfl

/-- K11. -/
theorem test_ld_dt_vx : (stepOn (withRegs [(0, 3)]) 0xF015).map (·.dt) = some 2 := rfl

/-- K14, K15. -/
theorem test_ld_st_vx : (stepOn (withRegs [(0, 1)]) 0xF018).map (fun t => (t.st, t.soundActive)) = some (0, true) ∧
    (stepOn { withRegs [(0, 0)] with st := 5 } 0xF018).map (fun t => (t.st, t.soundActive)) = some (0, false) :=
  ⟨rfl, rfl⟩

/-! ## The step and the transactions -/

/-- F24, then F23's report: an instruction at the top of memory completes, and the fetch after it reports. -/
theorem test_fetch_edge : (stepOn { State.reset with pc := 0xFFE } 0x6001).map (fun t => (t.v[0], t.pc)) =
    some (1, 0x1000) ∧
    (stepped { State.reset with pc := 0x1000 }).map (fun t => (t.pc, t.report)) =
      some (0x1000, some (.memoryBounds 0x1000)) := ⟨rfl, rfl⟩

/-- K17, its second step: the tick runs on a step that reports. -/
theorem test_tick_on_report : (stepped { State.reset with dt := 2, st := 1 }).map
    (fun t => (t.dt, t.st, t.soundActive, t.pc, t.report)) =
    some (1, 0, true, 0x200, some (.unknownOpcode 0x200 0x0000)) := rfl

/-- L1: glyph bytes at both ends of their region. -/
theorem test_reset_memory : State.reset.peek 0x000 = 0xF0 ∧ State.reset.peek 0x04F = 0x80 ∧ State.reset.peek 0x050 = 0 ∧
    State.reset.peek 0x200 = 0 := ⟨rfl, rfl, rfl, rfl⟩

/-- L6: the tail of an earlier program stays. -/
theorem test_load_keeps_tail : (match performAll [.load [1, 2, 3, 4], .load [9]] State.reset with
    | .next t => some (t.peek 0x200, t.peek 0x201, t.peek 0x203, t.pc)
    | _ => none) = some (9, 2, 4, 0x200) := rfl

/-- K18, K19. -/
theorem test_set_key : (State.reset.setKey 16 true) = (State.reset, some (.keyIndexError 16)) ∧
    ((State.reset.setKey 4 true).1.keys[4], ((State.reset.setKey 4 true).1.setKey 4 false).1.keys[4]) = (true, false) :=
  ⟨rfl, rfl⟩

/-! ## Witnesses: states and operands that meet an obligation's hypotheses, each clause at a boundary -/

/-- The encoding clauses: a word under each mask and match that an `EncodedAs` names. -/
theorem witness_EncodedAs :
    0x1ABC &&& 0xF000 = (0x1000 : Word) ∧ 0x2ABC &&& 0xF000 = (0x2000 : Word) ∧ 0x3ABC &&& 0xF000 = (0x3000 : Word) ∧
    0x4ABC &&& 0xF000 = (0x4000 : Word) ∧ 0x5120 &&& 0xF00F = (0x5000 : Word) ∧ 0x6ABC &&& 0xF000 = (0x6000 : Word) ∧
    0x7ABC &&& 0xF000 = (0x7000 : Word) ∧ 0x8120 &&& 0xF00F = (0x8000 : Word) ∧ 0x8121 &&& 0xF00F = (0x8001 : Word) ∧
    0x8122 &&& 0xF00F = (0x8002 : Word) ∧ 0x8123 &&& 0xF00F = (0x8003 : Word) ∧ 0x8124 &&& 0xF00F = (0x8004 : Word) ∧
    0x8125 &&& 0xF00F = (0x8005 : Word) ∧ 0x8126 &&& 0xF00F = (0x8006 : Word) ∧ 0x8127 &&& 0xF00F = (0x8007 : Word) ∧
    0x812E &&& 0xF00F = (0x800E : Word) ∧ 0x9120 &&& 0xF00F = (0x9000 : Word) := by decide

/-- The other encoding clauses. -/
theorem witness_EncodedAs_high :
    0xAABC &&& 0xF000 = (0xA000 : Word) ∧ 0xBABC &&& 0xF000 = (0xB000 : Word) ∧ 0xCABC &&& 0xF000 = (0xC000 : Word) ∧
    0xDABC &&& 0xF000 = (0xD000 : Word) ∧ 0xE59E &&& 0xF0FF = (0xE09E : Word) ∧ 0xE5A1 &&& 0xF0FF = (0xE0A1 : Word) ∧
    0xF307 &&& 0xF0FF = (0xF007 : Word) ∧ 0xF20A &&& 0xF0FF = (0xF00A : Word) ∧ 0xF015 &&& 0xF0FF = (0xF015 : Word) ∧
    0xFA18 &&& 0xF0FF = (0xF018 : Word) ∧ 0xF11E &&& 0xF0FF = (0xF01E : Word) ∧ 0xF429 &&& 0xF0FF = (0xF029 : Word) ∧
    0xF733 &&& 0xF0FF = (0xF033 : Word) ∧ 0xFF55 &&& 0xF0FF = (0xF055 : Word) ∧ 0xF265 &&& 0xF0FF = (0xF065 : Word) := by
  decide

/-- The hypothesis that names the instruction and its bit operation: each of its four cases. -/
theorem witness_CopyAndLogicWriteOneRegister (x y : Reg) :
    (∃ (i : Instr) (bit : Bool → Bool → Bool), i = .ldReg x y ∧ bit = fun _ b => b) ∧
    (∃ (i : Instr) (bit : Bool → Bool → Bool), i = .or x y ∧ bit = Bool.or) ∧
    (∃ (i : Instr) (bit : Bool → Bool → Bool), i = .and x y ∧ bit = Bool.and) ∧
    (∃ (i : Instr) (bit : Bool → Bool → Bool), i = .xor x y ∧ bit = Bool.xor) :=
  ⟨⟨_, _, rfl, rfl⟩, ⟨_, _, rfl, rfl⟩, ⟨_, _, rfl, rfl⟩, ⟨_, _, rfl, rfl⟩⟩

/-- The hypothesis that names the instruction and its operands: both cases, with a borrow and without. -/
theorem witness_SubtractWritesNoBorrow :
    (∃ (i : Instr) (a b : Byte), (i = .sub 0 1 ∧ a = (withRegs [(0, 5), (1, 7)]).v[(0 : Reg)] ∧
      b = (withRegs [(0, 5), (1, 7)]).v[(1 : Reg)]) ∧ a.toNat < b.toNat) ∧
    (∃ (i : Instr) (a b : Byte), (i = .subn 0 1 ∧ a = (withRegs [(0, 5), (1, 7)]).v[(1 : Reg)] ∧
      b = (withRegs [(0, 5), (1, 7)]).v[(0 : Reg)]) ∧ a.toNat ≥ b.toNat) :=
  ⟨⟨_, _, _, ⟨rfl, rfl, rfl⟩, by decide⟩, ⟨_, _, _, ⟨rfl, rfl, rfl⟩, by decide⟩⟩

/-- A bit clear in the mask, and a bit set in it. -/
theorem witness_RandomByteIsMasked : (0x0F : Byte).getLsbD 7 = false ∧ (0x0F : Byte).getLsbD 0 = true := by decide

/-- The last free slot and the full stack; the two clauses exclude each other. -/
theorem witness_CallPushesItsAddress :
    ({ State.reset with sp := 15 } : State).sp.val < 16 ∧ ({ State.reset with sp := 16 } : State).sp.val = 16 := by decide

/-- One address on the stack, the full stack, and the empty one. -/
theorem witness_ReturnResumesPastTheCall :
    ({ State.reset with sp := 1 } : State).sp.val = (0 : Fin 16).val + 1 ∧
    ({ State.reset with sp := 16 } : State).sp.val = (15 : Fin 16).val + 1 ∧ State.reset.sp.val = 0 := by decide

/-- A call at stack depth 15, and a state with the stack it left and everything else as at reset. -/
theorem witness_CallAndReturnBalance : ∃ t, exec (.call 0x300) { State.reset with sp := 15 } = .next t ∧
    ({ State.reset with stack := t.stack, sp := t.sp } : State).stack = t.stack ∧
    ({ State.reset with stack := t.stack, sp := t.sp } : State).sp = t.sp := ⟨_, rfl, rfl, rfl⟩

/-- Words of families 5 and 9 with another low nibble. -/
theorem witness_RegisterSkipsCompareTwoRegisters :
    ((0x5121 : Word).toNat / 4096 = 5 ∧ (0x5121 : Word).toNat % 16 ≠ 0) ∧
    ((0x912F : Word).toNat / 4096 = 9 ∧ (0x912F : Word).toNat % 16 ≠ 0) := by decide

/-- The last index at which three bytes fit, and the first at which they do not. -/
theorem witness_BcdStoresThreeDigits :
    ({ State.reset with i := 0xFFD } : State).i.toNat + 2 ≤ 0xFFF ∧
    0xFFF < ({ State.reset with i := 0xFFE } : State).i.toNat + 2 := by decide

/-- The last index at which a block of sixteen fits, and the first at which it does not. -/
theorem witness_StoreBlockCopiesTheRegisters :
    ({ State.reset with i := 0xFF0 } : State).i.toNat + (15 : Reg).val ≤ 0xFFF ∧
    0xFFF < ({ State.reset with i := 0xFF1 } : State).i.toNat + (15 : Reg).val := by decide

/-- The same for a block of one register, at the top of memory, and of two. -/
theorem witness_LoadBlockFillsTheRegisters :
    ({ State.reset with i := 0xFFF } : State).i.toNat + (0 : Reg).val ≤ 0xFFF ∧
    0xFFF < ({ State.reset with i := 0xFFF } : State).i.toNat + (1 : Reg).val := by decide

/-- A state that draws the sprite row 0x80, the byte at the top of memory, at (0, 0). -/
def drawing : State := { State.reset.poke 0xFFF 0x80 with i := 0xFFF }

/-- The same with that pixel already on. -/
def drawingOver : State := { drawing with fb := drawing.fb.toggle 0 0 }

/-- No rows at an index outside memory; one row at the top of memory; a pixel selected, and none with no rows; a collision
and no collision. -/
theorem witness_DrawTogglesTheSelectedPixels :
    (0 : BitVec 4).toNat = 0 ∧ drawing.i.toNat + (1 : BitVec 4).toNat - 1 ≤ 0xFFF ∧
    Selects drawing 0 0 1 0 0 ∧ ¬ Selects drawing 0 0 0 0 0 ∧
    (∃ px py, Selects drawingOver 0 0 1 px py ∧ drawingOver.fb[py][px] = true) ∧
    ¬ (∃ px py, Selects drawing 0 0 1 px py ∧ drawing.fb[py][px] = true) := by
  refine ⟨rfl, by decide, ⟨0, 0, by decide +kernel⟩, ?_, ⟨0, 0, ⟨0, 0, by decide +kernel⟩, by decide +kernel⟩, ?_⟩
  · rintro ⟨row, col, h, -⟩
    exact absurd h (Nat.not_lt_zero row)
  · rintro ⟨px, py, -, h⟩
    simp [drawing, State.poke, State.reset] at h

/-- A first draw at the top of memory that leaves both coordinate registers as they were, with a pixel off before it. -/
theorem witness_DrawingTwiceRestoresTheFramebuffer :
    drawing.i.toNat + (1 : BitVec 4).toNat - 1 ≤ 0xFFF ∧
    (∃ t, exec (.drw 0 1 1) drawing = .next t ∧ t.v[(0 : Reg)] = drawing.v[(0 : Reg)] ∧
      t.v[(1 : Reg)] = drawing.v[(1 : Reg)]) ∧
    (∃ px py, Selects drawing 0 1 1 px py ∧ drawing.fb[py][px] = false) ∧
    ¬ (∃ px py, Selects drawing 0 1 0 px py ∧ drawing.fb[py][px] = false) := by
  refine ⟨by decide, ⟨_, rfl, by decide +kernel, by decide +kernel⟩, ⟨0, 0, ⟨0, 0, by decide +kernel⟩, by decide +kernel⟩, ?_⟩
  rintro ⟨px, py, ⟨row, col, h, -⟩, -⟩
  exact absurd h (Nat.not_lt_zero row)

/-- The first row that is out of range. -/
theorem witness_DrawOutOfRangeReports : 0 < (2 : BitVec 4).toNat ∧ 0xFFF < drawing.i.toNat + (2 : BitVec 4).toNat - 1 := by
  decide

/-- The last key and the first number that is no key. -/
theorem witness_KeySkipsSampleTheLatch :
    ((withRegs [(5, 15)]).v[(5 : Reg)]).toNat = (15 : Key).val ∧ 15 < ((withRegs [(5, 16)]).v[(5 : Reg)]).toNat := by decide

/-- No key pressed. -/
theorem witness_KeyWaitHoldsThePc : ∀ k : Key, State.reset.keys[k] = false := by decide

/-- Two keys pressed; and one alone, at the end of the range. -/
theorem witness_KeyWaitStoresAPressedKey :
    (∃ k : Key, ({ State.reset with keys := pressing [3, 9] } : State).keys[k] = true) ∧
    (∀ j : Key, ({ State.reset with keys := pressing [15] } : State).keys[j] = true ↔ j = 15) :=
  ⟨⟨3, by decide +kernel⟩, by decide +kernel⟩

/-- An instruction in the last two bytes of memory. -/
theorem witness_StepRunsTheDecodedInstruction :
    ({ State.reset.pokeAll 0xFFE [0x60, 0x01] with pc := 0xFFE } : State).pc.toNat ≤ 0xFFE ∧
    decode [({ State.reset.pokeAll 0xFFE [0x60, 0x01] with pc := 0xFFE } : State).peek 0xFFE,
      ({ State.reset.pokeAll 0xFFE [0x60, 0x01] with pc := 0xFFE } : State).peek 0xFFF] = .ok (.ldImm 0 0x01, []) :=
  ⟨by decide, rfl⟩

/-- The last address with both bytes in memory. -/
theorem witness_FetchIsBigEndian : ({ State.reset with pc := 0xFFE } : State).pc.toNat ≤ 0xFFE := by decide

/-- One byte in memory, and none. -/
theorem witness_FetchOutOfRangeReports :
    0xFFE < ({ State.reset with pc := 0xFFF } : State).pc.toNat ∧ 0xFFF < ({ State.reset with pc := 0x1000 } : State).pc.toNat := by
  decide

/-- The word 0x0000 of the memory after reset. -/
theorem witness_UnknownWordIsReported :
    State.reset.pc.toNat ≤ 0xFFE ∧
    (0x0000 : Word).toNat = (State.reset.peek State.reset.pc.toNat).toNat * 256 +
      (State.reset.peek (State.reset.pc.toNat + 1)).toNat ∧ recognised 0x0000 = false := ⟨by decide, rfl, rfl⟩

/-- A step that reports. -/
theorem witness_ReportingStepChangesOnlyTheTick :
    ∃ t, step State.reset = .next t ∧ t.report = some (.unknownOpcode 0x200 0x0000) := ⟨_, rfl, rfl⟩

/-- A step whose instruction reports, with both timers running. -/
theorem witness_ReportRecursForEver :
    ∃ t, step (({ State.reset with dt := 3, st := 1 } : State).withFetchWord 16 0x00EE) = .next t ∧
      t.report = some (.stackUnderflow 0x200) ∧ t.soundActive = true := ⟨_, rfl, rfl, rfl⟩

/-- An instruction of each kind that reports its own condition. -/
theorem witness_ConditionsBelongToTheirInstructions :
    State.reset.report = none ∧
    (∃ t, exec .ret State.reset = .next t ∧ t.report = some (.stackUnderflow 0x200)) ∧
    (∃ t, exec (.call 0) { State.reset with sp := 16 } = .next t ∧ t.report = some (.stackOverflow 0x200)) ∧
    (∃ t, exec (.ldB 0) { State.reset with i := 0xFFE } = .next t ∧ t.report = some (.memoryBounds 0x1000)) ∧
    (∃ t, exec (.skp 0) (withRegs [(0, 16)]) = .next t ∧ t.report = some (.keyIndexRange 0x200 16)) :=
  ⟨rfl, ⟨_, rfl, rfl⟩, ⟨_, rfl, rfl⟩, ⟨_, rfl, rfl⟩, ⟨_, rfl, rfl⟩⟩

/-- Two different states with the same delay timer, and two with the same sound timer. -/
theorem witness_TimersAreIndependent :
    ({ State.reset with st := 1 } : State).dt = State.reset.dt ∧ ({ State.reset with dt := 1 } : State).st = State.reset.st := by
  decide

/-- A delay running over two steps of a loop that never executes FX15. -/
def looping : State := ({ State.reset with dt := 1 } : State).withFetchWord 16 0x1200

theorem looping_fetch : looping.fetchInstr = .ok (.jp 0x200) := rfl

theorem witness_DelayTimerCountsSteps : SetsNoDelay 2 looping := by
  have h1 := looping_fetch
  have h2 : looping.tick.fetchInstr = .ok (.jp 0x200) := rfl
  have hs : step looping = .next looping.tick := by
    rw [step, show looping.startStep.fetchInstr = .ok (.jp 0x200) from h1]; rfl
  refine ⟨fun x h => ?_, fun t ht => ⟨fun x h => ?_, fun _ _ => trivial⟩⟩
  · rw [h1] at h; cases h
  · rw [hs] at ht
    injection ht with ht
    rw [← ht, h2] at h
    cases h

/-- A run without a report, and a state with none latched. -/
theorem witness_LatchTellsReportFreeRuns : looping.reported = false ∧ ReportFree 1 looping := by
  refine ⟨rfl, ⟨looping.tick, ?_, rfl, trivial⟩⟩
  rw [step, show looping.startStep.fetchInstr = .ok (.jp 0x200) from looping_fetch]
  rfl

/-- A step that executes FX18 with 1, and a step that executes none. -/
theorem witness_SoundSignalMarksTheEndOfTheCountdown :
    (∃ t, step ((withRegs [(0, 1)]).withFetchWord 16 0xF018) = .next t ∧
      ((withRegs [(0, 1)]).withFetchWord 16 0xF018).fetchInstr = .ok (.ldStVx 0)) ∧
    (∃ t, step looping = .next t ∧ ∀ x : Reg, looping.fetchInstr ≠ .ok (.ldStVx x)) :=
  ⟨⟨_, rfl, rfl⟩, ⟨_, rfl, fun x h => by rw [looping_fetch] at h; cases h⟩⟩

/-- An instruction that changes each element the matrix bounds. -/
theorem witness_AccessMatrixBoundsEveryWrite :
    (∃ t, exec (.ldImm 15 1) State.reset = .next t ∧ t.v[(15 : Reg)] ≠ State.reset.v[(15 : Reg)]) ∧
    (∃ t, exec (.ldI 1) State.reset = .next t ∧ t.i ≠ State.reset.i) ∧
    (∃ t, exec (.ldB 0) { withRegs [(0, 9)] with i := 0xFFD } = .next t ∧
      t.peek 0xFFF ≠ ({ withRegs [(0, 9)] with i := 0xFFD } : State).peek 0xFFF) ∧
    (∃ t, exec (.call 0) State.reset = .next t ∧ t.stack ≠ State.reset.stack ∧ t.sp ≠ State.reset.sp) ∧
    (∃ t, exec (.ldDtVx 0) (withRegs [(0, 9)]) = .next t ∧ t.dt ≠ (withRegs [(0, 9)]).dt) ∧
    (∃ t, exec (.ldStVx 0) (withRegs [(0, 9)]) = .next t ∧ t.st ≠ (withRegs [(0, 9)]).st) ∧
    (∃ t, exec (.drw 0 1 1) { drawing with dirty := false } = .next t ∧ t.fb[0][0] ≠ drawing.fb[0][0] ∧ t.dirty ≠ false) := by
  refine ⟨⟨_, rfl, ?_⟩, ⟨_, rfl, ?_⟩, ⟨_, rfl, ?_⟩, ⟨_, rfl, ?_⟩, ⟨_, rfl, ?_⟩, ⟨_, rfl, ?_⟩, ⟨_, rfl, ?_⟩⟩ <;> decide +kernel

/-- A state that meets the invariant, not the reset state: a listed byte, an address on the stack, the highest pc, the
sound signal up, a report latched. -/
def busy : State :=
  { State.reset.poke 0x300 0xFF with
    stack := State.reset.stack.set 0 0xFFE, sp := 1, pc := 0x10FE, soundActive := true, report := some (.memoryBounds 0x10FE),
    reported := true }

theorem witness_StepKeepsTheInvariant : busy.Inv ∧ ∃ t, step busy = .next t :=
  ⟨⟨by decide +kernel, by decide +kernel, by decide +kernel, by decide +kernel, by decide +kernel⟩, ⟨_, rfl⟩⟩

/-- The step among the transactions, and a load that lists bytes. -/
theorem witness_TransactionsKeepTheInvariant :
    busy.Inv ∧ (∃ u a, perform .step busy = .next (u, a)) ∧ ∃ u a, perform (.load [0x12, 0x00]) busy = .next (u, a) :=
  ⟨witness_StepKeepsTheInvariant.1, ⟨_, _, rfl⟩, ⟨_, _, rfl⟩⟩

/-- Two different states with the same glyph parameter. -/
theorem witness_ResetSetsEveryElement : busy.font = State.reset.font ∧ busy ≠ State.reset := ⟨rfl, by decide +kernel⟩

/-- The longest sequence that fits, its last byte, and the bytes next to it. -/
theorem witness_LoadCopiesTheRom : (List.replicate 3584 (0xAB : Byte)).length ≤ 3584 ∧
    3583 < (List.replicate 3584 (0xAB : Byte)).length ∧ ¬ (0x200 ≤ 0x1FF ∧ 0x1FF < 0x200 + 3584) ∧
    ¬ (0x200 ≤ 0x1000 ∧ 0x1000 < 0x200 + 3584) := by
  simp only [List.length_replicate]; decide

/-- The shortest sequence that does not fit. -/
theorem witness_OversizedRomIsRejected : 3584 < (List.replicate 3585 (0xAB : Byte)).length := by
  simp only [List.length_replicate]; decide

/-- A sequence of one byte, its place, and the first address that is neither glyph nor program. -/
theorem witness_LaunchStateHoldsTheRom : [(0xAB : Byte)].length ≤ 3584 ∧ 0 < [(0xAB : Byte)].length ∧
    80 ≤ 80 ∧ ¬ (0x200 ≤ 80 ∧ 80 < 0x200 + [(0xAB : Byte)].length) := by decide

/-- The indices at both ends of the range, and next to them. -/
theorem witness_SetKeyWritesOneKey :
    ((0 : Int) ≤ 0 ∧ (0 : Int) ≤ 15) ∧ ((0 : Int) ≤ 15 ∧ (15 : Int) ≤ 15) ∧ ¬ ((0 : Int) ≤ -1 ∧ (-1 : Int) ≤ 15) ∧
    ¬ ((0 : Int) ≤ 16 ∧ (16 : Int) ≤ 15) := by decide

/-- A transaction that is neither `reset` nor `step` nor `clearDirty`, with the flag up. -/
theorem witness_HostReadsAndClearsTheDisplay : (∃ u a, perform (.load [1]) State.reset = .next (u, a)) ∧
    (Transaction.load [1] ≠ .reset ∧ Transaction.load [1] ≠ .step ∧ Transaction.load [1] ≠ .clearDirty) ∧
    State.reset.dirty = true := ⟨⟨_, _, rfl⟩, by decide, rfl⟩

/-- A word with an ignored field. -/
theorem witness_EncodeInvertsDecode : decodeWord 0x8236 = .ok (.shr 2 3) := by decide

/-- A word of a row, and a word of none. -/
theorem witness_DecoderFollowsTheOpcodeMap : decodeWord 0xF265 = .ok (.ldVxMem 2) ∧
    (⟨"LD_VX_MEM", 0xF0FF, 0xF065⟩ : Row) ∈ opcodeTable ∧
    (⟨"LD_VX_MEM", 0xF0FF, 0xF065⟩ : Row).matches 0xF265 = true ∧ recognised 0x5121 = false := by decide

/-- A word that matches a row of the table. -/
theorem witness_OpcodeRowsAreDisjoint : (⟨"CLS", 0xFFFF, 0x00E0⟩ : Row) ∈ opcodeTable ∧
    (⟨"CLS", 0xFFFF, 0x00E0⟩ : Row).matches 0x00E0 = true := by decide

/-- A store of an instruction into the last two bytes of memory. -/
theorem witness_StoredInstructionIsExecutedNext : ({ State.reset with pc := 0xFFE } : State).pc.toNat ≤ 0xFFE ∧
    ∃ t, ({ State.reset with pc := 0xFFE } : State).writeBlock 0xFFE (encodeBytes (.ldImm 0 1)) = .ok t :=
  ⟨by decide, ⟨_, rfl⟩⟩

end Sys2Proof.Tests
end

/-! The encoding part of a rule: the fields the obligations name are the decoder's, and a word under the mask `0xF000` has
the family digit of the match. -/

namespace Sys2Proof.Claims

theorem fieldX_eq (w : Word) : fieldX w = xField w := Fin.ext (xField_val w).symm

theorem fieldNN_eq (w : Word) : fieldNN w = nnField w :=
  BitVec.eq_of_toNat_eq (by rw [nnField_toNat, fieldNN, BitVec.toNat_ofNat])

theorem fieldNNN_eq (w : Word) : fieldNNN w = nnnField w :=
  BitVec.eq_of_toNat_eq (by rw [nnnField_toNat, fieldNNN, BitVec.toNat_ofNat])

/-- The mask `0xF000` keeps the family digit. -/
theorem opField_and_mask (w : Word) : opField (w &&& 0xF000#16) = opField w := by
  conv_lhs => rw [← wordNNN_fields w, wordNNN_mask]
  exact opField_wordNNN (opField w) 0#12

theorem decodeWord_of_decodeForm {w : Word} {i : Instr} (h : decodeForm w = some i) : decodeWord w = .ok i := by
  rw [decodeWord, h]

/-- Under the mask `0xF000` an encoding is settled by what the decoder makes of the family (30_encoding.md R64). -/
theorem encodedAs_of_family {pattern : Word} {mk : Word → Instr}
    (h : ∀ w, opField w = opField pattern → decodeForm w = some (mk w)) : EncodedAs 0xF000 pattern mk := by
  intro w hw
  have hop : opField w = opField pattern := by rw [← hw]; exact (opField_and_mask w).symm
  exact decodeWord_of_decodeForm (h w hop)

end Sys2Proof.Claims

/-! Control transfer (41_flow.md): the jump and the two immediate skips. -/

namespace Sys2Proof.Claims

open Sys2Proof.Machine

/-! ## Encodings -/

theorem jp_encodedAs : EncodedAs 0xF000 0x1000 (fun w => .jp (fieldNNN w)) :=
  encodedAs_of_family fun w h => by rw [decodeForm, h, fieldNNN_eq]; rfl

theorem seImm_encodedAs : EncodedAs 0xF000 0x3000 (fun w => .seImm (fieldX w) (fieldNN w)) :=
  encodedAs_of_family fun w h => by rw [decodeForm, h, fieldX_eq, fieldNN_eq]; rfl

theorem sneImm_encodedAs : EncodedAs 0xF000 0x4000 (fun w => .sneImm (fieldX w) (fieldNN w)) :=
  encodedAs_of_family fun w h => by rw [decodeForm, h, fieldX_eq, fieldNN_eq]; rfl

/-! ## Execute phases -/

theorem exec_jp (nnn : BitVec 12) (s : State) : exec (.jp nnn) s = .next (s.setPc (zextAddr nnn)) := rfl

theorem exec_seImm (x : Reg) (nn : Byte) (s : State) :
    exec (.seImm x nn) s = .next (s.skipIf (decide (s.v[x] = nn))) := rfl

theorem exec_sneImm (x : Reg) (nn : Byte) (s : State) :
    exec (.sneImm x nn) s = .next (s.skipIf (decide (s.v[x] ≠ nn))) := rfl

theorem zextAddr_toNat (nnn : BitVec 12) : (zextAddr nnn).toNat = nnn.toNat :=
  BitVec.toNat_setWidth_of_le (by decide)

/-- A skip on a condition and a skip on its negation go to different addresses: one is 2 further than the other. -/
theorem skipIf_pc_ne_skipIf_not (s : State) (c : Prop) [Decidable c] :
    (s.skipIf (decide c)).pc ≠ (s.skipIf (decide ¬c)).pc := by
  intro h
  have hn := congrArg BitVec.toNat h
  rw [State.skipIf_toNat, State.skipIf_toNat, ite_not] at hn
  split at hn <;> omega

/-! ## The obligations -/

/-- Settles O8: the jump is a `setPc` of the zero-extended target. -/
theorem jumpSetsThePc : Obligations.JumpSetsThePc :=
  ⟨jp_encodedAs, fun nnn s => ⟨s.setPc (zextAddr nnn), exec_jp nnn s, zextAddr_toNat nnn, rfl⟩⟩

/-- Settles O13: the two instructions skip on a condition and on its negation. -/
theorem immediateSkipsAreComplements : Obligations.ImmediateSkipsAreComplements := by
  refine ⟨seImm_encodedAs, sneImm_encodedAs, fun x nn s => ?_⟩
  simp only [BitVec.toNat_inj]
  refine ⟨_, _, exec_seImm x nn s, exec_sneImm x nn s, State.skipIf_toNat s _, ?_,
    skipIf_pc_ne_skipIf_not s _, rfl, rfl⟩
  rw [← ite_not]
  exact State.skipIf_toNat s (s.v[x] ≠ nn)

end Sys2Proof.Claims

/-! Register load (42_alu.md): the immediate load. -/

namespace Sys2Proof.Claims

open Sys2Proof.Machine

theorem ldImm_encodedAs : EncodedAs 0xF000 0x6000 (fun w => .ldImm (fieldX w) (fieldNN w)) :=
  encodedAs_of_family fun w h => by rw [decodeForm, h, fieldX_eq, fieldNN_eq]; rfl

theorem exec_ldImm (x : Reg) (nn : Byte) (s : State) : exec (.ldImm x nn) s = .next (s.setV x nn).advance := rfl

/-- Settles O1: the load is one register write followed by the sequential advance. -/
theorem loadImmediateSetsTheRegister : Obligations.LoadImmediateSetsTheRegister :=
  ⟨ldImm_encodedAs, fun x nn s => ⟨(s.setV x nn).advance, exec_ldImm x nn s, fun r => s.setV_get x r nn,
    (s.setV x nn).advance_toNat, rfl⟩⟩

end Sys2Proof.Claims

/-! Index register (43_index_memory.md): the load of `I`. -/

namespace Sys2Proof.Claims

open Sys2Proof.Machine

theorem ldI_encodedAs : EncodedAs 0xF000 0xA000 (fun w => .ldI (fieldNNN w)) :=
  encodedAs_of_family fun w h => by rw [decodeForm, h, fieldNNN_eq]; rfl

theorem exec_ldI (nnn : BitVec 12) (s : State) : exec (.ldI nnn) s = .next (s.setI (zextAddr nnn)).advance := rfl

/-- Settles O15: the load is one write of the zero-extended operand to `I` followed by the sequential advance. -/
theorem loadIndexSetsI : Obligations.LoadIndexSetsI :=
  ⟨ldI_encodedAs, fun nnn s => ⟨(s.setI (zextAddr nnn)).advance, exec_ldI nnn s, zextAddr_toNat nnn,
    (s.setI (zextAddr nnn)).advance_toNat, rfl⟩⟩

end Sys2Proof.Claims

/-! Display (44_display.md): the clear screen. -/

namespace Sys2Proof.Claims

open Sys2Proof.Machine

theorem cls_decodes : decodeWord 0x00E0 = .ok .cls := decodeWord_of_decodeForm rfl

theorem exec_cls (s : State) : exec .cls s = .next (s.setDisplay Framebuffer.blank).advance := rfl

theorem blank_pixel_off (x : Fin 64) (y : Fin 32) : Framebuffer.blank[y][x] = false := by
  simp [Framebuffer.blank]

/-- Settles O21: the instruction writes the blank framebuffer, with `DIRTY`, and takes the sequential advance. -/
theorem clearScreenTurnsEveryPixelOff : Obligations.ClearScreenTurnsEveryPixelOff :=
  ⟨cls_decodes, fun s => ⟨(s.setDisplay Framebuffer.blank).advance, exec_cls s, blank_pixel_off,
    State.setDisplay_dirty s Framebuffer.blank, (s.setDisplay Framebuffer.blank).advance_toNat, rfl⟩⟩

end Sys2Proof.Claims


/-! The host's transactions on the display and the program, and the timer unit (60_exceptions.md). -/

namespace Sys2Proof.Claims

open Sys2Proof.Machine

/-! ## Pixels, row-major -/

/-- What the host reads is the rows of the framebuffer put one after the other. -/
theorem readFramebuffer_eq (s : State) : s.readFramebuffer = s.fb.flatten.toList := by
  simp [State.readFramebuffer, List.flatMap_def, Vector.flatten, Vector.toList, Array.toList_flatten,
    Function.comp_def]

theorem readFramebuffer_length (s : State) : s.readFramebuffer.length = 2048 := by
  rw [readFramebuffer_eq, Vector.length_toList]

/-- Pixel `(x, y)` stands at index `64 y + x` (44_display.md R130). -/
theorem readFramebuffer_getElem? (s : State) (x : Fin 64) (y : Fin 32) :
    s.readFramebuffer[y.val * 64 + x.val]? = some s.fb[y][x] := by
  have hrow : (y.val * 64 + x.val) / 64 = y.val := by omega
  have hcol : (y.val * 64 + x.val) % 64 = x.val := by omega
  have hlt : y.val * 64 + x.val < 32 * 64 := by omega
  simp only [readFramebuffer_eq, Vector.getElem?_toList, Vector.getElem?_flatten, dif_pos hlt, hrow, hcol]
  rfl

/-! ## Transactions and the display -/

/-- `load` writes memory alone, whether it stores the program or rejects it (70_reset_and_hazards.md R183). -/
theorem load_state_eq (s : State) (rom : List Byte) : (s.load rom).1 = { s with mem := (s.load rom).1.mem } := by
  unfold State.load
  split
  · exact s.pokeAll_eq Config.progBase rom
  · rfl

/-- `setKey` writes the key latch alone, whether its index is in range or not (60_exceptions.md R166). -/
theorem setKey_state_eq (s : State) (index : Int) (pressed : Bool) :
    (s.setKey index pressed).1 = { s with keys := (s.setKey index pressed).1.keys } := by
  unfold State.setKey
  split <;> rfl

theorem load_of_romMax_lt {s : State} {rom : List Byte} (h : Config.romMax < rom.length) :
    s.load rom = (s, some (.loadOverflow rom.length)) :=
  if_neg (Nat.not_le.mpr h)

/-- The step transaction leaves the state a step makes, and answers its report. -/
theorem perform_step_eq_next {s u : State} {a : Answer} (h : perform .step s = .next (u, a)) :
    step s = .next u := by
  cases hs : step s with
  | next t => simp only [perform, hs] at h; cases h; rfl
  | fault f => cases f
  | refused r => simp only [perform, hs] at h; cases h

/-- No transaction of the host but `reset` and `step` writes a pixel (60_exceptions.md R167). -/
theorem perform_keeps_fb {tr : Transaction} {s u : State} {a : Answer} (h : perform tr s = .next (u, a))
    (hreset : tr ≠ .reset) (hstep : tr ≠ .step) : u.fb = s.fb := by
  cases tr with
  | reset => exact absurd rfl hreset
  | step => exact absurd rfl hstep
  | load rom => cases h; rw [load_state_eq]
  | setKey index pressed => cases h; rw [setKey_state_eq]
  | isSoundActive | readFramebuffer | readDirty | clearDirty => cases h; rfl

/-! ## The dirty flag stays up -/

@[simp] theorem pokeAll_dirty (s : State) (a : Nat) (bs : List Byte) : (s.pokeAll a bs).dirty = s.dirty := by
  rw [State.pokeAll_eq]

/-- An instruction's own effect never takes the dirty flag down: a drawing instruction raises it, and every other leaves it
(10_state.md R31, R36). -/
theorem completes_keeps_dirty {i : Instr} {s t : State} (h : Completes i s t) (hd : s.dirty = true) :
    t.dirty = true := by
  cases i
  case cls => cases h; rfl
  case drw x y n => obtain ⟨-, rfl⟩ := h; rfl
  case ldB x | ldMemVx x => obtain ⟨-, rfl⟩ := h; simpa using hd
  case ldVxMem x | ret | call nnn | skp x | sknp x => obtain ⟨-, rfl⟩ := h; exact hd
  case ldVxK x => obtain ⟨-, rfl⟩ | ⟨k, -, rfl⟩ := h <;> exact hd
  all_goals cases h; exact hd

theorem exec_keeps_dirty {i : Instr} {s t : State} (h : exec i s = .next t) (hd : s.dirty = true) :
    t.dirty = true := by
  obtain hc | ⟨c, rfl⟩ := exec_cases h
  · exact completes_keeps_dirty hc hd
  · exact hd

theorem step_keeps_dirty {s t : State} (h : step s = .next t) (hd : s.dirty = true) : t.dirty = true := by
  obtain ⟨i, u, -, hu, rfl⟩ | ⟨c, -, rfl⟩ := step_cases h
  · exact (State.tick_dirty u).trans (exec_keeps_dirty hu hd)
  · exact hd

/-- Only `clearDirty` takes the dirty flag down (60_exceptions.md R168); `reset` raises it (10_state.md R35). -/
theorem perform_keeps_dirty {tr : Transaction} {s u : State} {a : Answer} (h : perform tr s = .next (u, a))
    (hclear : tr ≠ .clearDirty) (hd : s.dirty = true) : u.dirty = true := by
  cases tr with
  | clearDirty => exact absurd rfl hclear
  | step => exact step_keeps_dirty (perform_step_eq_next h) hd
  | reset => cases h; rfl
  | load rom => cases h; rw [load_state_eq]; exact hd
  | setKey index pressed => cases h; rw [setKey_state_eq]; exact hd
  | isSoundActive | readFramebuffer | readDirty => cases h; exact hd

/-! ## The obligations -/

/-- Settles O53: the pixels are the rows put one after the other, and `DIRTY` is followed through every transaction, the
step taken apart by `step_cases` and `exec_cases`. -/
theorem hostReadsAndClearsTheDisplay : Obligations.HostReadsAndClearsTheDisplay :=
  ⟨fun s => ⟨s.readFramebuffer, rfl, readFramebuffer_length s, readFramebuffer_getElem? s⟩,
    fun _ => ⟨rfl, rfl⟩,
    fun _ _ _ _ h => ⟨perform_keeps_fb h, perform_keeps_dirty h⟩⟩

/-- Settles O40: the ticked `DT` is a function of `DT`, and the ticked `ST` and the sound signal are functions of `ST`. -/
theorem timersAreIndependent : Obligations.TimersAreIndependent := by
  refine fun s s' => ⟨fun hdt => ?_, fun hst => ⟨?_, ?_⟩, rfl⟩
  · rw [State.tick_dt, State.tick_dt, hdt]
  · rw [State.tick_st, State.tick_st, hst]
  · rw [State.tick_soundActive, State.tick_soundActive, hst]

/-- Settles O50: too long a sequence takes the rejecting branch of `load`, and the transaction passes its answer on. -/
theorem oversizedRomIsRejected : Obligations.OversizedRomIsRejected := by
  intro s rom hlen
  rw [perform, load_of_romMax_lt hlen]

end Sys2Proof.Claims

/-! Encodings under the masks of the opcode map: a word under `0xF00F` has the family and the low nibble of the match, and a
word under `0xF0FF` the family and the low byte. With these, one line for each row of 30_encoding.md R65. -/

namespace Sys2Proof.Claims

theorem fieldY_eq (w : Word) : fieldY w = yField w := Fin.ext (yField_val w).symm

theorem fieldN_eq (w : Word) : fieldN w = nField w :=
  BitVec.eq_of_toNat_eq (by rw [nField_toNat, fieldN, BitVec.toNat_ofNat])

/-! ## What the masks keep -/

theorem and_maskXY (w : Word) : w &&& 0xF00F#16 = wordXYN (opField w) 0 0 (nField w) := by
  conv_lhs => rw [← wordXYN_fields w, wordXYN_mask]
  rfl

theorem and_maskX (w : Word) : w &&& 0xF0FF#16 = wordXNN (opField w) 0 (nnField w) := by
  conv_lhs => rw [← wordXNN_fields w, wordXNN_maskX]
  rfl

/-- Under the mask `0xF00F` an encoding is settled by what the decoder makes of the family and the low nibble. -/
theorem encodedAs_of_nibble {pattern : Word} {mk : Word → Instr}
    (h : ∀ w, opField w = opField pattern → nField w = nField pattern → decodeForm w = some (mk w)) :
    EncodedAs 0xF00F pattern mk := by
  intro w hw
  rw [← hw, show w &&& 0xF00F = wordXYN (opField w) 0 0 (nField w) from and_maskXY w] at h
  exact decodeWord_of_decodeForm (h w (opField_wordXYN _ _ _ _).symm (nField_wordXYN _ _ _ _).symm)

/-- Under the mask `0xF0FF` an encoding is settled by what the decoder makes of the family and the low byte. -/
theorem encodedAs_of_lowByte {pattern : Word} {mk : Word → Instr}
    (h : ∀ w, opField w = opField pattern → nnField w = nnField pattern → decodeForm w = some (mk w)) :
    EncodedAs 0xF0FF pattern mk := by
  intro w hw
  rw [← hw, show w &&& 0xF0FF = wordXNN (opField w) 0 (nnField w) from and_maskX w] at h
  exact decodeWord_of_decodeForm (h w (opField_wordXNN _ _ _).symm (nnField_wordXNN _ _ _).symm)

/-- A row of one word: the full mask keeps every bit. -/
theorem encodedAs_of_word {pattern : Word} {i : Instr} (h : decodeWord pattern = .ok i) :
    EncodedAs 0xFFFF pattern (fun _ => i) := by
  intro w hw
  rw [show (0xFFFF : Word) = BitVec.allOnes 16 from rfl, BitVec.and_allOnes] at hw
  rw [hw, h]

/-- Family 8 is decoded by its low nibble. -/
theorem alu_encodedAs {pattern : Word} {mk : Word → Instr} (hp : opField pattern = 0x8)
    (h : ∀ w, nField w = nField pattern → decodeAlu w = some (mk w)) : EncodedAs 0xF00F pattern mk :=
  encodedAs_of_nibble fun w hop hn => by
    rw [decodeForm, hop, hp]
    exact h w hn

/-- Family E is decoded by its low byte. -/
theorem key_encodedAs {pattern : Word} {mk : Word → Instr} (hp : opField pattern = 0xE)
    (h : ∀ w, nnField w = nnField pattern → decodeKey w = some (mk w)) : EncodedAs 0xF0FF pattern mk :=
  encodedAs_of_lowByte fun w hop hn => by
    rw [decodeForm, hop, hp]
    exact h w hn

/-- Family F is decoded by its low byte. -/
theorem misc_encodedAs {pattern : Word} {mk : Word → Instr} (hp : opField pattern = 0xF)
    (h : ∀ w, nnField w = nnField pattern → decodeMisc w = some (mk w)) : EncodedAs 0xF0FF pattern mk :=
  encodedAs_of_lowByte fun w hop hn => by
    rw [decodeForm, hop, hp]
    exact h w hn

/-! ## The rows -/

theorem ret_decodes : decodeWord 0x00EE = .ok .ret := decodeWord_of_decodeForm rfl

theorem call_encodedAs : EncodedAs 0xF000 0x2000 (fun w => .call (fieldNNN w)) :=
  encodedAs_of_family fun w h => by rw [decodeForm, h, fieldNNN_eq]; rfl

theorem seReg_encodedAs : EncodedAs 0xF00F 0x5000 (fun w => .seReg (fieldX w) (fieldY w)) :=
  encodedAs_of_nibble fun w h hn => by rw [decodeForm, h, hn, fieldX_eq, fieldY_eq]; rfl

theorem addImm_encodedAs : EncodedAs 0xF000 0x7000 (fun w => .addImm (fieldX w) (fieldNN w)) :=
  encodedAs_of_family fun w h => by rw [decodeForm, h, fieldX_eq, fieldNN_eq]; rfl

theorem ldReg_encodedAs : EncodedAs 0xF00F 0x8000 (fun w => .ldReg (fieldX w) (fieldY w)) :=
  alu_encodedAs rfl fun w hn => by rw [decodeAlu, hn, fieldX_eq, fieldY_eq]; rfl

theorem or_encodedAs : EncodedAs 0xF00F 0x8001 (fun w => .or (fieldX w) (fieldY w)) :=
  alu_encodedAs rfl fun w hn => by rw [decodeAlu, hn, fieldX_eq, fieldY_eq]; rfl

theorem and_encodedAs : EncodedAs 0xF00F 0x8002 (fun w => .and (fieldX w) (fieldY w)) :=
  alu_encodedAs rfl fun w hn => by rw [decodeAlu, hn, fieldX_eq, fieldY_eq]; rfl

theorem xor_encodedAs : EncodedAs 0xF00F 0x8003 (fun w => .xor (fieldX w) (fieldY w)) :=
  alu_encodedAs rfl fun w hn => by rw [decodeAlu, hn, fieldX_eq, fieldY_eq]; rfl

theorem addReg_encodedAs : EncodedAs 0xF00F 0x8004 (fun w => .addReg (fieldX w) (fieldY w)) :=
  alu_encodedAs rfl fun w hn => by rw [decodeAlu, hn, fieldX_eq, fieldY_eq]; rfl

theorem sub_encodedAs : EncodedAs 0xF00F 0x8005 (fun w => .sub (fieldX w) (fieldY w)) :=
  alu_encodedAs rfl fun w hn => by rw [decodeAlu, hn, fieldX_eq, fieldY_eq]; rfl

theorem shr_encodedAs : EncodedAs 0xF00F 0x8006 (fun w => .shr (fieldX w) (fieldY w)) :=
  alu_encodedAs rfl fun w hn => by rw [decodeAlu, hn, fieldX_eq, fieldY_eq]; rfl

theorem subn_encodedAs : EncodedAs 0xF00F 0x8007 (fun w => .subn (fieldX w) (fieldY w)) :=
  alu_encodedAs rfl fun w hn => by rw [decodeAlu, hn, fieldX_eq, fieldY_eq]; rfl

theorem shl_encodedAs : EncodedAs 0xF00F 0x800E (fun w => .shl (fieldX w) (fieldY w)) :=
  alu_encodedAs rfl fun w hn => by rw [decodeAlu, hn, fieldX_eq, fieldY_eq]; rfl

theorem sneReg_encodedAs : EncodedAs 0xF00F 0x9000 (fun w => .sneReg (fieldX w) (fieldY w)) :=
  encodedAs_of_nibble fun w h hn => by rw [decodeForm, h, hn, fieldX_eq, fieldY_eq]; rfl

theorem jpV0_encodedAs : EncodedAs 0xF000 0xB000 (fun w => .jpV0 (fieldNNN w)) :=
  encodedAs_of_family fun w h => by rw [decodeForm, h, fieldNNN_eq]; rfl

theorem rnd_encodedAs : EncodedAs 0xF000 0xC000 (fun w => .rnd (fieldX w) (fieldNN w)) :=
  encodedAs_of_family fun w h => by rw [decodeForm, h, fieldX_eq, fieldNN_eq]; rfl

theorem drw_encodedAs : EncodedAs 0xF000 0xD000 (fun w => .drw (fieldX w) (fieldY w) (fieldN w)) :=
  encodedAs_of_family fun w h => by rw [decodeForm, h, fieldX_eq, fieldY_eq, fieldN_eq]; rfl

theorem skp_encodedAs : EncodedAs 0xF0FF 0xE09E (fun w => .skp (fieldX w)) :=
  key_encodedAs rfl fun w hnn => by rw [decodeKey, hnn, fieldX_eq]; rfl

theorem sknp_encodedAs : EncodedAs 0xF0FF 0xE0A1 (fun w => .sknp (fieldX w)) :=
  key_encodedAs rfl fun w hnn => by rw [decodeKey, hnn, fieldX_eq]; rfl

theorem ldVxDt_encodedAs : EncodedAs 0xF0FF 0xF007 (fun w => .ldVxDt (fieldX w)) :=
  misc_encodedAs rfl fun w hnn => by rw [decodeMisc, hnn, fieldX_eq]; rfl

theorem ldVxK_encodedAs : EncodedAs 0xF0FF 0xF00A (fun w => .ldVxK (fieldX w)) :=
  misc_encodedAs rfl fun w hnn => by rw [decodeMisc, hnn, fieldX_eq]; rfl

theorem ldDtVx_encodedAs : EncodedAs 0xF0FF 0xF015 (fun w => .ldDtVx (fieldX w)) :=
  misc_encodedAs rfl fun w hnn => by rw [decodeMisc, hnn, fieldX_eq]; rfl

theorem ldStVx_encodedAs : EncodedAs 0xF0FF 0xF018 (fun w => .ldStVx (fieldX w)) :=
  misc_encodedAs rfl fun w hnn => by rw [decodeMisc, hnn, fieldX_eq]; rfl

theorem addI_encodedAs : EncodedAs 0xF0FF 0xF01E (fun w => .addI (fieldX w)) :=
  misc_encodedAs rfl fun w hnn => by rw [decodeMisc, hnn, fieldX_eq]; rfl

theorem ldF_encodedAs : EncodedAs 0xF0FF 0xF029 (fun w => .ldF (fieldX w)) :=
  misc_encodedAs rfl fun w hnn => by rw [decodeMisc, hnn, fieldX_eq]; rfl

theorem ldB_encodedAs : EncodedAs 0xF0FF 0xF033 (fun w => .ldB (fieldX w)) :=
  misc_encodedAs rfl fun w hnn => by rw [decodeMisc, hnn, fieldX_eq]; rfl

theorem ldMemVx_encodedAs : EncodedAs 0xF0FF 0xF055 (fun w => .ldMemVx (fieldX w)) :=
  misc_encodedAs rfl fun w hnn => by rw [decodeMisc, hnn, fieldX_eq]; rfl

theorem ldVxMem_encodedAs : EncodedAs 0xF0FF 0xF065 (fun w => .ldVxMem (fieldX w)) :=
  misc_encodedAs rfl fun w hnn => by rw [decodeMisc, hnn, fieldX_eq]; rfl

end Sys2Proof.Claims

/-! The decoder, the encoder and the opcode map held against each other (30_encoding.md). -/

namespace Sys2Proof.Claims

/-! ## Decode of encode -/

/-- The decoder reads the fields the encoder wrote: families 8, E and F go through their own decoders. -/
theorem decodeForm_encode (i : Instr) : decodeForm (encode i) = some i := by
  cases i
  case cls | ret => rfl
  case ldReg | or | and | xor | addReg | sub | shr | subn | shl => simp [encode, decodeForm, decodeAlu]
  case skp | sknp => simp [encode, decodeForm, decodeKey]
  case ldVxDt | ldVxK | ldDtVx | ldStVx | addI | ldF | ldB | ldMemVx | ldVxMem => simp [encode, decodeForm, decodeMisc]
  all_goals simp [encode, decodeForm]

@[simp] theorem decodeWord_encode (i : Instr) : decodeWord (encode i) = .ok i :=
  decodeWord_of_decodeForm (decodeForm_encode i)

/-- Settles O54: the decoder reads back each field, and the two bytes of a word make the word again. -/
theorem decodeInvertsEncode : Obligations.DecodeInvertsEncode :=
  fun i => ⟨decodeWord_encode i, fun rest => by simp [encodeBytes, decode, Machine.wordOfBytes_hi_lo]⟩

/-! ## Encode of decode -/

theorem decodeWord_eq_ok {w : Word} {i : Instr} : decodeWord w = .ok i ↔ decodeForm w = some i := by
  unfold decodeWord
  split <;> simp_all

theorem decodeWord_eq_error {w : Word} : decodeWord w = .error (.unknownOpcode w) ↔ decodeForm w = none := by
  unfold decodeWord
  split <;> simp_all

theorem wordNNN_of_opField {w : Word} {op : BitVec 4} (h : (opField w).toNat = op.toNat) :
    wordNNN op (nnnField w) = w := by
  rw [← BitVec.eq_of_toNat_eq h, wordNNN_fields]

theorem wordXNN_of_opField {w : Word} {op : BitVec 4} (h : (opField w).toNat = op.toNat) :
    wordXNN op (xField w) (nnField w) = w := by
  rw [← BitVec.eq_of_toNat_eq h, wordXNN_fields]

theorem wordXYN_of_opField {w : Word} {op : BitVec 4} (h : (opField w).toNat = op.toNat) :
    wordXYN op (xField w) (yField w) (nField w) = w := by
  rw [← BitVec.eq_of_toNat_eq h, wordXYN_fields]

theorem wordXNN_of_lowByte {w : Word} {op : BitVec 4} {nn : Byte} (h : (opField w).toNat = op.toNat)
    (hnn : (nnField w).toNat = nn.toNat) : wordXNN op (xField w) nn = w := by
  rw [← BitVec.eq_of_toNat_eq hnn, wordXNN_of_opField h]

theorem wordXYN_of_nibble {w : Word} {op n : BitVec 4} (h : (opField w).toNat = op.toNat)
    (hn : (nField w).toNat = n.toNat) : wordXYN op (xField w) (yField w) n = w := by
  rw [← BitVec.eq_of_toNat_eq hn, wordXYN_of_opField h]

theorem encode_of_decodeAlu {w : Word} {i : Instr} (hop : (opField w).toNat = 8) (h : decodeAlu w = some i) :
    encode i = w := by
  unfold decodeAlu at h
  split at h
  case h_10 => cases h
  all_goals
    next hn =>
      cases h
      exact wordXYN_of_nibble hop hn

theorem encode_of_decodeKey {w : Word} {i : Instr} (hop : (opField w).toNat = 14) (h : decodeKey w = some i) :
    encode i = w := by
  unfold decodeKey at h
  split at h
  case h_3 => cases h
  all_goals
    next hnn =>
      cases h
      exact wordXNN_of_lowByte hop hnn

theorem encode_of_decodeMisc {w : Word} {i : Instr} (hop : (opField w).toNat = 15) (h : decodeMisc w = some i) :
    encode i = w := by
  unfold decodeMisc at h
  split at h
  case h_10 => cases h
  all_goals
    next hnn =>
      cases h
      exact wordXNN_of_lowByte hop hnn

/-- The decoder drops no bit: what it reads is the word's own fields, and the fixed digits are the ones it compared. -/
theorem encode_of_decodeForm {w : Word} {i : Instr} (h : decodeForm w = some i) : encode i = w := by
  unfold decodeForm at h
  split at h
  case h_1 hop =>
    split at h
    · next hw => cases h; exact hw.symm
    · split at h
      · next hw => cases h; exact hw.symm
      · cases h
  case h_2 hop | h_3 hop | h_11 hop | h_12 hop => cases h; exact wordNNN_of_opField hop
  case h_4 hop | h_5 hop | h_7 hop | h_8 hop | h_13 hop => cases h; exact wordXNN_of_opField hop
  case h_6 hop | h_10 hop =>
    split at h
    · next hn => cases h; exact wordXYN_of_nibble hop (congrArg BitVec.toNat hn)
    · cases h
  case h_9 hop => exact encode_of_decodeAlu hop h
  case h_14 hop => cases h; exact wordXYN_of_opField hop
  case h_15 hop => exact encode_of_decodeKey hop h
  case h_16 =>
    have hlt := (opField w).isLt
    simp only [imp_false] at *
    exact encode_of_decodeMisc (by omega) h

/-- Settles O55: every field the decoder reads goes back to its place, and every fixed digit was compared. -/
theorem encodeInvertsDecode : Obligations.EncodeInvertsDecode :=
  fun _ _ h => encode_of_decodeForm (decodeWord_eq_ok.mp h)

/-! ## The opcode map -/

theorem encodesItsRow (i : Instr) : Laws.EncodesItsRow.Statement i := by
  cases i
  case cls => exact Laws.EncodesItsRow.cls
  case ret => exact Laws.EncodesItsRow.ret
  case jp nnn => exact Laws.EncodesItsRow.jp nnn
  case call nnn => exact Laws.EncodesItsRow.call nnn
  case seImm x nn => exact Laws.EncodesItsRow.seImm x nn
  case sneImm x nn => exact Laws.EncodesItsRow.sneImm x nn
  case seReg x y => exact Laws.EncodesItsRow.seReg x y
  case ldImm x nn => exact Laws.EncodesItsRow.ldImm x nn
  case addImm x nn => exact Laws.EncodesItsRow.addImm x nn
  case ldReg x y => exact Laws.EncodesItsRow.ldReg x y
  case or x y => exact Laws.EncodesItsRow.or x y
  case and x y => exact Laws.EncodesItsRow.and x y
  case xor x y => exact Laws.EncodesItsRow.xor x y
  case addReg x y => exact Laws.EncodesItsRow.addReg x y
  case sub x y => exact Laws.EncodesItsRow.sub x y
  case shr x y => exact Laws.EncodesItsRow.shr x y
  case subn x y => exact Laws.EncodesItsRow.subn x y
  case shl x y => exact Laws.EncodesItsRow.shl x y
  case sneReg x y => exact Laws.EncodesItsRow.sneReg x y
  case ldI nnn => exact Laws.EncodesItsRow.ldI nnn
  case jpV0 nnn => exact Laws.EncodesItsRow.jpV0 nnn
  case rnd x nn => exact Laws.EncodesItsRow.rnd x nn
  case drw x y n => exact Laws.EncodesItsRow.drw x y n
  case skp x => exact Laws.EncodesItsRow.skp x
  case sknp x => exact Laws.EncodesItsRow.sknp x
  case ldVxDt x => exact Laws.EncodesItsRow.ldVxDt x
  case ldVxK x => exact Laws.EncodesItsRow.ldVxK x
  case ldDtVx x => exact Laws.EncodesItsRow.ldDtVx x
  case ldStVx x => exact Laws.EncodesItsRow.ldStVx x
  case addI x => exact Laws.EncodesItsRow.addI x
  case ldF x => exact Laws.EncodesItsRow.ldF x
  case ldB x => exact Laws.EncodesItsRow.ldB x
  case ldMemVx x => exact Laws.EncodesItsRow.ldMemVx x
  case ldVxMem x => exact Laws.EncodesItsRow.ldVxMem x

/-- Every word of the row decodes to an instruction of the row. -/
def RowDecodes (r : Row) : Prop := ∀ w : Word, r.matches w = true → ∃ i : Instr, decodeWord w = .ok i ∧ i.row = r

theorem rowDecodes_of_encodedAs {r : Row} {mk : Word → Instr} (h : EncodedAs r.mask r.pattern mk)
    (hrow : ∀ w, (mk w).row = r) : RowDecodes r :=
  fun w hw => ⟨mk w, h w (beq_iff_eq.mp hw), hrow w⟩

theorem flowRows_decode : ∀ r ∈ flowRows, RowDecodes r := by
  simp only [flowRows, List.forall_mem_cons]
  exact ⟨rowDecodes_of_encodedAs (encodedAs_of_word cls_decodes) fun _ => rfl,
    rowDecodes_of_encodedAs (encodedAs_of_word ret_decodes) fun _ => rfl,
    rowDecodes_of_encodedAs jp_encodedAs fun _ => rfl, rowDecodes_of_encodedAs call_encodedAs fun _ => rfl,
    rowDecodes_of_encodedAs seImm_encodedAs fun _ => rfl, rowDecodes_of_encodedAs sneImm_encodedAs fun _ => rfl,
    rowDecodes_of_encodedAs seReg_encodedAs fun _ => rfl, List.forall_mem_nil _⟩

theorem aluRows_decode : ∀ r ∈ aluRows, RowDecodes r := by
  simp only [aluRows, List.forall_mem_cons]
  exact ⟨rowDecodes_of_encodedAs ldImm_encodedAs fun _ => rfl, rowDecodes_of_encodedAs addImm_encodedAs fun _ => rfl,
    rowDecodes_of_encodedAs ldReg_encodedAs fun _ => rfl, rowDecodes_of_encodedAs or_encodedAs fun _ => rfl,
    rowDecodes_of_encodedAs and_encodedAs fun _ => rfl, rowDecodes_of_encodedAs xor_encodedAs fun _ => rfl,
    rowDecodes_of_encodedAs addReg_encodedAs fun _ => rfl, rowDecodes_of_encodedAs sub_encodedAs fun _ => rfl,
    rowDecodes_of_encodedAs shr_encodedAs fun _ => rfl, rowDecodes_of_encodedAs subn_encodedAs fun _ => rfl,
    rowDecodes_of_encodedAs shl_encodedAs fun _ => rfl, List.forall_mem_nil _⟩

theorem middleRows_decode : ∀ r ∈ middleRows, RowDecodes r := by
  simp only [middleRows, List.forall_mem_cons]
  exact ⟨rowDecodes_of_encodedAs sneReg_encodedAs fun _ => rfl, rowDecodes_of_encodedAs ldI_encodedAs fun _ => rfl,
    rowDecodes_of_encodedAs jpV0_encodedAs fun _ => rfl, rowDecodes_of_encodedAs rnd_encodedAs fun _ => rfl,
    rowDecodes_of_encodedAs drw_encodedAs fun _ => rfl, rowDecodes_of_encodedAs skp_encodedAs fun _ => rfl,
    rowDecodes_of_encodedAs sknp_encodedAs fun _ => rfl, List.forall_mem_nil _⟩

theorem fRows_decode : ∀ r ∈ fRows, RowDecodes r := by
  simp only [fRows, List.forall_mem_cons]
  exact ⟨rowDecodes_of_encodedAs ldVxDt_encodedAs fun _ => rfl, rowDecodes_of_encodedAs ldVxK_encodedAs fun _ => rfl,
    rowDecodes_of_encodedAs ldDtVx_encodedAs fun _ => rfl, rowDecodes_of_encodedAs ldStVx_encodedAs fun _ => rfl,
    rowDecodes_of_encodedAs addI_encodedAs fun _ => rfl, rowDecodes_of_encodedAs ldF_encodedAs fun _ => rfl,
    rowDecodes_of_encodedAs ldB_encodedAs fun _ => rfl, rowDecodes_of_encodedAs ldMemVx_encodedAs fun _ => rfl,
    rowDecodes_of_encodedAs ldVxMem_encodedAs fun _ => rfl, List.forall_mem_nil _⟩

theorem opcodeTable_decodes : ∀ r ∈ opcodeTable, RowDecodes r := by
  simp only [opcodeTable, List.forall_mem_append]
  exact ⟨⟨⟨flowRows_decode, aluRows_decode⟩, middleRows_decode⟩, fRows_decode⟩

/-- What a word decodes to is an instruction of a row it matches. -/
theorem decoded_row_matches {w : Word} {i : Instr} (h : decodeWord w = .ok i) :
    i.row.matches w = true ∧ recognised w = true := by
  obtain ⟨hmem, hmatch⟩ := encodesItsRow i
  rw [encodeInvertsDecode w i h] at hmatch
  exact ⟨hmatch, List.any_eq_true.mpr ⟨i.row, hmem, hmatch⟩⟩

theorem decodeWord_of_not_recognised {w : Word} (h : recognised w = false) :
    decodeWord w = .error (.unknownOpcode w) := by
  rw [decodeWord_eq_error]
  cases hd : decodeForm w with
  | none => rfl
  | some i =>
    obtain ⟨-, hrec⟩ := decoded_row_matches (decodeWord_of_decodeForm hd)
    rw [h] at hrec
    cases hrec

/-- Settles O56: the table covers the decoder because the encoder's word has its row's fixed bits, and the decoder the table
row by row. -/
theorem decoderFollowsTheOpcodeMap : Obligations.DecoderFollowsTheOpcodeMap :=
  fun w => ⟨fun _ h => decoded_row_matches h, fun r hr => opcodeTable_decodes r hr w, decodeWord_of_not_recognised⟩

/-- Settles O57: a word of two rows decodes to an instruction of each, and it decodes to one only. -/
theorem opcodeRowsAreDisjoint : Obligations.OpcodeRowsAreDisjoint := by
  refine ⟨rfl, fun w r r' hr hr' hw hw' => ?_⟩
  obtain ⟨i, hi, rfl⟩ := opcodeTable_decodes r hr w hw
  obtain ⟨i', hi', rfl⟩ := opcodeTable_decodes r' hr' w hw'
  rw [hi] at hi'
  cases hi'
  rfl

/-! ## The unrecognised words -/

theorem decodeAlu_eq_none {w : Word} : decodeAlu w = none ↔ w.toNat % 16 ∈ [8, 9, 10, 11, 12, 13, 15] := by
  unfold decodeAlu
  rw [nField_toNat]
  split
  case h_10 => simp_all; omega
  all_goals simp_all

theorem decodeKey_eq_none {w : Word} : decodeKey w = none ↔ w.toNat % 256 ∉ [0x9E, 0xA1] := by
  unfold decodeKey
  rw [nnField_toNat]
  split
  case h_3 => simp_all
  all_goals simp_all

theorem decodeMisc_eq_none {w : Word} : decodeMisc w = none ↔
    w.toNat % 256 ∉ [0x07, 0x0A, 0x15, 0x18, 0x1E, 0x29, 0x33, 0x55, 0x65] := by
  unfold decodeMisc
  rw [nnField_toNat]
  split
  case h_10 => simp_all
  all_goals simp_all

/-- Settles O58: family by family, what the decoder rejects. -/
theorem unrecognisedWordsByFamily : Obligations.UnrecognisedWordsByFamily := by
  intro w
  have hw := w.isLt
  rw [decodeWord_eq_error]
  unfold decodeForm
  rw [opField_toNat]
  split
  case h_1 h => simp [h, ite_eq_iff, BitVec.toNat_eq]
  case h_6 h | h_10 h => simp [h, BitVec.toNat_eq, nField_toNat]
  case h_9 h => simp [h, decodeAlu_eq_none]
  case h_15 h => simp [h, decodeKey_eq_none]
  case h_16 =>
    simp only [imp_false] at *
    have h : w.toNat / 4096 = 15 := by omega
    simp [h, decodeMisc_eq_none]
  all_goals
    next h => simp [h]

/-- Settles O59: the words are decoded. -/
theorem exampleWordsDecode : Obligations.ExampleWordsDecode := by
  unfold Obligations.ExampleWordsDecode
  decide

end Sys2Proof.Claims

/-! Register arithmetic, logic, shift and random (42_alu.md): each execute phase is a register write, for the flag writers a
flag write after it, and the sequential advance. -/

namespace Sys2Proof.Claims

open Sys2Proof.Machine

/-- A result written to VX and the flag to VF after it: with X = F the flag is what stays (40_step_cycle.md R85). -/
theorem setV_setFlag_toNat (s : State) (x r : Reg) (b : Byte) (c : Bool) :
    (((s.setV x b).setFlag c).v[r]).toNat =
      if r = 15 then (flagByte c).toNat else if r = x then b.toNat else (s.v[r]).toNat := by
  rw [State.setFlag_get, State.setV_get]
  split_ifs <;> rfl

/-! ## Execute phases -/

theorem exec_addImm (x : Reg) (nn : Byte) (s : State) :
    exec (.addImm x nn) s = .next (s.setV x (s.v[x] + nn)).advance := rfl

theorem exec_ldReg (x y : Reg) (s : State) : exec (.ldReg x y) s = .next (s.setV x s.v[y]).advance := rfl

theorem exec_or (x y : Reg) (s : State) : exec (.or x y) s = .next (s.setV x (s.v[x] ||| s.v[y])).advance := rfl

theorem exec_and (x y : Reg) (s : State) : exec (.and x y) s = .next (s.setV x (s.v[x] &&& s.v[y])).advance := rfl

theorem exec_xor (x y : Reg) (s : State) : exec (.xor x y) s = .next (s.setV x (s.v[x] ^^^ s.v[y])).advance := rfl

theorem exec_addReg (x y : Reg) (s : State) : exec (.addReg x y) s =
    .next ((s.setV x (s.v[x] + s.v[y])).setFlag (carryFlag s.v[x] s.v[y])).advance := rfl

theorem exec_sub (x y : Reg) (s : State) : exec (.sub x y) s =
    .next ((s.setV x (s.v[x] - s.v[y])).setFlag (noBorrowFlag s.v[x] s.v[y])).advance := rfl

theorem exec_subn (x y : Reg) (s : State) : exec (.subn x y) s =
    .next ((s.setV x (s.v[y] - s.v[x])).setFlag (noBorrowFlag s.v[y] s.v[x])).advance := rfl

theorem exec_shr (x y : Reg) (s : State) :
    exec (.shr x y) s = .next ((s.setV x (s.v[x] >>> 1)).setFlag (lsbFlag s.v[x])).advance := rfl

theorem exec_shl (x y : Reg) (s : State) :
    exec (.shl x y) s = .next ((s.setV x (s.v[x] <<< 1)).setFlag (msbFlag s.v[x])).advance := rfl

theorem exec_rnd (x : Reg) (nn : Byte) (s : State) :
    exec (.rnd x nn) s = .next (s.countDraw.setV x (Config.randByte s.draws &&& nn)).advance := rfl

/-! ## Flags and results as numbers -/

theorem carryFlag_toNat (a b : Byte) : (flagByte (carryFlag a b)).toNat = if a.toNat + b.toNat > 255 then 1 else 0 := by
  simp only [flagByte_toNat, carryFlag, decide_eq_true_eq]

theorem noBorrowFlag_toNat (a b : Byte) : (flagByte (noBorrowFlag a b)).toNat = if a.toNat ≥ b.toNat then 1 else 0 := by
  simp only [flagByte_toNat, noBorrowFlag, decide_eq_true_eq]

theorem byteSub_toNat (a b : Byte) :
    (a - b).toNat = if a.toNat ≥ b.toNat then a.toNat - b.toNat else a.toNat + 256 - b.toNat := by
  have := a.isLt
  have := b.isLt
  rw [BitVec.toNat_sub]
  split <;> omega

theorem shr_one_toNat (b : Byte) : (b >>> 1).toNat = b.toNat / 2 := by
  rw [BitVec.toNat_ushiftRight, Nat.shiftRight_eq_div_pow, Nat.pow_one]

theorem shl_one_toNat (b : Byte) : (b <<< 1).toNat = 2 * b.toNat % 256 := by
  rw [BitVec.toNat_shiftLeft, Nat.shiftLeft_eq, Nat.pow_one, Nat.mul_comm]

/-! ## The obligations -/

/-- Settles O2: one register write of the sum, and no flag write. -/
theorem addImmediateWritesNoFlag : Obligations.AddImmediateWritesNoFlag := by
  refine ⟨addImm_encodedAs, fun x nn s => ⟨_, exec_addImm x nn s, fun r => ?_,
    (s.setV x (s.v[x] + nn)).advance_toNat, rfl⟩⟩
  rw [State.advance_v, State.setV_get, ← BitVec.toNat_add]
  split <;> rfl

/-- An instruction that writes a byte computed bit by bit from VX and VY to VX, and takes the sequential advance. -/
theorem exec_bitwise {i : Instr} {s : State} {x y : Reg} {b : Byte} {bit : Bool → Bool → Bool}
    (hexec : exec i s = .next (s.setV x b).advance)
    (hb : ∀ k, b.getLsbD k = bit ((s.v[x]).getLsbD k) ((s.v[y]).getLsbD k)) :
    ∃ t, exec i s = .next t ∧
      (∀ k < 8, (t.v[x]).getLsbD k = bit ((s.v[x]).getLsbD k) ((s.v[y]).getLsbD k)) ∧
      (∀ r : Reg, r ≠ x → t.v[r] = s.v[r]) ∧
      t.pc.toNat = (s.pc.toNat + 2) % 65536 ∧ t = { s with v := t.v, pc := t.pc } := by
  refine ⟨_, hexec, fun k _ => ?_, fun r hr => ?_, (s.setV x b).advance_toNat, rfl⟩
  · rw [State.advance_v, State.setV_get, if_pos rfl, hb]
  · rw [State.advance_v, State.setV_get, if_neg hr]

/-- Settles O3: one register write of the byte computed bit by bit, for each of the four operations. -/
theorem copyAndLogicWriteOneRegister : Obligations.CopyAndLogicWriteOneRegister := by
  refine ⟨ldReg_encodedAs, or_encodedAs, and_encodedAs, xor_encodedAs, fun x y s i bit hi => ?_⟩
  rcases hi with ⟨rfl, rfl⟩ | ⟨rfl, rfl⟩ | ⟨rfl, rfl⟩ | ⟨rfl, rfl⟩
  · exact exec_bitwise (y := y) (bit := fun _ b => b) (exec_ldReg x y s) fun _ => rfl
  · exact exec_bitwise (exec_or x y s) fun _ => BitVec.getLsbD_or
  · exact exec_bitwise (exec_and x y s) fun _ => BitVec.getLsbD_and
  · exact exec_bitwise (exec_xor x y s) fun _ => BitVec.getLsbD_xor

/-- Settles O4: the sum, then the carry. -/
theorem addRegistersWritesCarry : Obligations.AddRegistersWritesCarry := by
  refine ⟨addReg_encodedAs, fun x y s => ⟨_, exec_addReg x y s, fun r => ?_,
    ((s.setV x (s.v[x] + s.v[y])).setFlag (carryFlag s.v[x] s.v[y])).advance_toNat, rfl⟩⟩
  rw [State.advance_v, setV_setFlag_toNat, carryFlag_toNat, BitVec.toNat_add]

/-- Settles O5: the difference, then the flag of no borrow. -/
theorem subtractWritesNoBorrow : Obligations.SubtractWritesNoBorrow := by
  refine ⟨sub_encodedAs, subn_encodedAs, fun x y s i a b hi => ?_⟩
  have hexec : exec i s = .next ((s.setV x (a - b)).setFlag (noBorrowFlag a b)).advance := by
    rcases hi with ⟨rfl, rfl, rfl⟩ | ⟨rfl, rfl, rfl⟩
    · exact exec_sub x y s
    · exact exec_subn x y s
  refine ⟨_, hexec, fun r => ?_, ((s.setV x (a - b)).setFlag (noBorrowFlag a b)).advance_toNat, rfl⟩
  rw [State.advance_v, setV_setFlag_toNat, noBorrowFlag_toNat, byteSub_toNat]

/-- Settles O6: VX shifted, then the bit shifted out; Y is never read. -/
theorem shiftsWriteTheBitShiftedOut : Obligations.ShiftsWriteTheBitShiftedOut := by
  refine ⟨shr_encodedAs, shl_encodedAs, fun x y s => ⟨⟨_, exec_shr x y s, fun r => ?_,
    ((s.setV x (s.v[x] >>> 1)).setFlag (lsbFlag s.v[x])).advance_toNat, rfl⟩, ⟨_, exec_shl x y s, fun r => ?_,
    ((s.setV x (s.v[x] <<< 1)).setFlag (msbFlag s.v[x])).advance_toNat, rfl⟩⟩⟩
  · rw [State.advance_v, setV_setFlag_toNat, lsbFlag_toNat, shr_one_toNat]
  · rw [State.advance_v, setV_setFlag_toNat, msbFlag_toNat, shl_one_toNat]

/-- Settles O7: the drawn byte is ANDed with the mask, so a bit clear in the mask is clear in VX. -/
theorem randomByteIsMasked : Obligations.RandomByteIsMasked := by
  refine ⟨rnd_encodedAs, fun x nn s => ?_⟩
  have hbit : ∀ k, (((s.countDraw.setV x (Config.randByte s.draws &&& nn)).advance).v[x]).getLsbD k =
      ((Config.randByte s.draws).getLsbD k && nn.getLsbD k) := by
    intro k
    rw [State.advance_v, State.setV_get, if_pos rfl, BitVec.getLsbD_and]
  refine ⟨_, exec_rnd x nn s, fun k _ => hbit k, fun k _ hk => ?_, fun r hr => ?_, rfl,
    (s.countDraw.setV x (Config.randByte s.draws &&& nn)).advance_toNat, rfl⟩
  · rw [hbit, hk, Bool.and_false]
  · rw [State.advance_v, State.setV_get, if_neg hr]; rfl

end Sys2Proof.Claims

/-! Control transfer (41_flow.md): the indexed jump, call and return, and the register skips. -/

namespace Sys2Proof.Claims

open Sys2Proof.Machine

/-! ## Execute phases -/

theorem exec_jpV0 (nnn : BitVec 12) (s : State) : exec (.jpV0 nnn) s = .next (s.setPc (s.indexedTarget nnn)) := rfl

theorem exec_seReg (x y : Reg) (s : State) :
    exec (.seReg x y) s = .next (s.skipIf (decide (s.v[x] = s.v[y]))) := rfl

theorem exec_sneReg (x y : Reg) (s : State) :
    exec (.sneReg x y) s = .next (s.skipIf (decide (s.v[x] ≠ s.v[y]))) := rfl

theorem exec_call_ok {s : State} (nnn : BitVec 12) (h : s.sp.val < 16) : exec (.call nnn) s = .next
    (({ s with stack := s.stack.set s.sp.val s.pc h, sp := ⟨s.sp.val + 1, by omega⟩ } : State).setPc (zextAddr nnn)) :=
  State.finish_ok (State.pushPc_ok h)

theorem exec_ret_ok {s : State} {k : Fin 16} (h : s.sp.val = k.val + 1) : exec .ret s = .next
    (({ s with sp := k.castSucc } : State).setPc (s.stack[k] + 2)) := by
  have hpos : 0 < s.sp.val := by omega
  have hk : s.sp.val - 1 = k.val := by omega
  refine (State.finish_ok (State.popStack_ok hpos)).trans ?_
  simp only [hk]
  rfl

theorem indexedTarget_toNat (s : State) (nnn : BitVec 12) :
    (s.indexedTarget nnn).toNat = nnn.toNat + (s.v[(0 : Reg)]).toNat := by
  have hnnn := nnn.isLt
  have hb := (s.v[(0 : Reg)]).isLt
  rw [State.indexedTarget, BitVec.toNat_add, zextAddr_toNat, zextByte, State.getV_eq,
    BitVec.toNat_setWidth_of_le (by decide)]
  omega

/-! ## The obligations -/

/-- Settles O9: the 16-bit sum of 12 and 8 bits does not overflow. -/
theorem indexedJumpAddsV0 : Obligations.IndexedJumpAddsV0 :=
  ⟨jpV0_encodedAs, fun nnn s => ⟨_, exec_jpV0 nnn s, indexedTarget_toNat s nnn, rfl⟩⟩

/-- Settles O10: the push takes slot SP while one is free, and raises on a full stack. -/
theorem callPushesItsAddress : Obligations.CallPushesItsAddress := by
  refine ⟨call_encodedAs, fun nnn s => ⟨fun h => ⟨_, exec_call_ok nnn h, fun k => ?_, rfl, zextAddr_toNat nnn, rfl⟩,
    fun h => State.finish_error (State.pushPc_error h)⟩⟩
  exact (Vector.getElem_set h k.isLt).trans (by simp only [eq_comm]; rfl)

/-- Settles O11: the pop gives the slot below SP, and raises on an empty stack. -/
theorem returnResumesPastTheCall : Obligations.ReturnResumesPastTheCall := by
  refine ⟨ret_decodes, fun s => ⟨fun k h => ⟨_, exec_ret_ok h, rfl, ?_, rfl⟩,
    fun h => State.finish_error (State.popStack_error h)⟩⟩
  exact BitVec.toNat_add _ _

/-- Settles O12: the slot the call wrote is the one the return reads. -/
theorem callAndReturnBalance : Obligations.CallAndReturnBalance := by
  intro nnn s h
  refine ⟨_, exec_call_ok nnn h, fun t' hstack hsp => ?_⟩
  have hsp' : t'.sp.val = (⟨s.sp.val, h⟩ : Fin 16).val + 1 := congrArg Fin.val hsp
  have hslot : t'.stack[(⟨s.sp.val, h⟩ : Fin 16)] = s.pc := by rw [hstack]; simp
  refine ⟨_, exec_ret_ok hsp', ?_, rfl, rfl⟩
  rw [State.setPc_pc, hslot, BitVec.toNat_add]; rfl

/-- Settles O14: the two instructions skip on equality and on its negation; the other low nibbles are among the words
`unrecognisedWordsByFamily` lists. -/
theorem registerSkipsCompareTwoRegisters : Obligations.RegisterSkipsCompareTwoRegisters := by
  refine ⟨seReg_encodedAs, sneReg_encodedAs, fun w hop hn => (unrecognisedWordsByFamily w).mpr ?_, fun x y s => ?_,
    fun x s => ⟨?_, ?_⟩⟩
  · rcases hop with h | h
    · exact .inr (.inl ⟨h, hn⟩)
    · exact .inr (.inr (.inr (.inl ⟨h, hn⟩)))
  · simp only [BitVec.toNat_inj]
    refine ⟨_, _, exec_seReg x y s, exec_sneReg x y s, State.skipIf_toNat s _, ?_, rfl, rfl⟩
    rw [← ite_not]
    exact State.skipIf_toNat s (s.v[x] ≠ s.v[y])
  · rw [exec_seReg, decide_eq_true rfl]; rfl
  · rw [exec_sneReg, decide_eq_false (not_not_intro rfl)]; rfl

end Sys2Proof.Claims

/-! Index register, BCD and register blocks (43_index_memory.md). -/

namespace Sys2Proof.Claims

open Sys2Proof.Machine

/-! ## Stores -/

@[simp] theorem pokeAll_font (s : State) (a : Nat) (bs : List Byte) : (s.pokeAll a bs).font = s.font := by
  rw [State.pokeAll_eq]

@[simp] theorem pokeAll_pc (s : State) (a : Nat) (bs : List Byte) : (s.pokeAll a bs).pc = s.pc := by
  rw [State.pokeAll_eq]

/-- Inside a stored block the bytes stored are read. -/
theorem peek_pokeAll_block (s : State) (a : Nat) {bs : List Byte} {k : Nat} (hk : k < bs.length) :
    (s.pokeAll a bs).peek (a + k) = bs.getD k 0 := by
  rw [State.peek_pokeAll, if_pos (by omega), Nat.add_sub_cancel_left]

/-- Outside a stored block every byte reads as before. -/
theorem peek_pokeAll_outside (s : State) {a a' : Nat} {bs : List Byte} (h : ¬ (a ≤ a' ∧ a' < a + bs.length)) :
    (s.pokeAll a bs).peek a' = s.peek a' := by
  rw [State.peek_pokeAll, if_neg h]

/-! ## Execute phases -/

theorem exec_addI (x : Reg) (s : State) :
    exec (.addI x) s = .next ((s.setI (s.indexPlus x)).setFlag (rangeFlag s.i s.v[x])).advance := rfl

theorem exec_ldF (x : Reg) (s : State) : exec (.ldF x) s = .next (s.setI (glyphAddress s.v[x])).advance := rfl

theorem exec_ldB_ok {s : State} (x : Reg) (h : s.i.toNat + 2 ≤ 0xFFF) :
    exec (.ldB x) s = .next (s.pokeAll s.i.toNat (bcdDigits s.v[x])).advance :=
  State.finish_ok (State.writeBlock_ok (by simp only [bcdDigits, List.length_cons, List.length_nil]; omega))

theorem exec_ldMemVx_ok {s : State} (x : Reg) (h : s.i.toNat + x.val ≤ 0xFFF) :
    exec (.ldMemVx x) s = .next ((s.pokeAll s.i.toNat (s.firstRegs x)).setI (s.indexPast x)).advance :=
  State.finish_ok (State.writeBlock_ok (by rw [State.firstRegs_length]; omega))

theorem exec_ldVxMem_ok {s : State} (x : Reg) (h : s.i.toNat + x.val ≤ 0xFFF) : exec (.ldVxMem x) s =
    .next ((s.setFirstRegs ((List.range (x.val + 1)).map fun k => s.peek (s.i.toNat + k))).setI (s.indexPast x)).advance :=
  State.finish_ok (State.readBlock_ok (.inr (by omega)))

/-! ## Values -/

theorem rangeFlag_toNat (w : Word) (b : Byte) :
    (flagByte (rangeFlag w b)).toNat = if w.toNat + b.toNat > 0xFFF then 1 else 0 := by
  simp only [flagByte_toNat, rangeFlag, decide_eq_true_eq]

theorem indexPlus_toNat (s : State) (x : Reg) :
    (s.indexPlus x).toNat = (s.i.toNat + (s.v[x]).toNat) % 65536 := by
  rw [State.indexPlus, BitVec.toNat_add, zextByte, State.getV_eq, BitVec.toNat_setWidth_of_le (by decide)]

theorem indexPast_toNat {s : State} {x : Reg} (h : s.i.toNat + x.val ≤ 0xFFF) :
    (s.indexPast x).toNat = s.i.toNat + x.val + 1 := by
  rw [State.indexPast, BitVec.toNat_add, BitVec.toNat_ofNat]
  omega

theorem glyphAddress_toNat (b : Byte) : (glyphAddress b).toNat = b.toNat * 5 := by
  have := b.isLt
  rw [glyphAddress, BitVec.toNat_ofNat]
  omega

/-! ## The obligations -/

/-- Settles O16: the sum goes to `I` unmasked, then the flag of the true sum to VF. -/
theorem addIndexFlagsTheRange : Obligations.AddIndexFlagsTheRange := by
  refine ⟨addI_encodedAs, fun x s => ⟨_, exec_addI x s, indexPlus_toNat s x, fun r => ?_,
    ((s.setI (s.indexPlus x)).setFlag (rangeFlag s.i s.v[x])).advance_toNat, rfl⟩⟩
  rw [State.advance_v, State.setFlag_get, ← rangeFlag_toNat]
  split_ifs <;> rfl

/-- Settles O17: five times a byte fits in 16 bits. -/
theorem glyphIndexIsFiveTimesTheRegister : Obligations.GlyphIndexIsFiveTimesTheRegister :=
  ⟨ldF_encodedAs, fun x s => ⟨_, exec_ldF x s, glyphAddress_toNat s.v[x],
    (s.setI (glyphAddress s.v[x])).advance_toNat, rfl⟩⟩

/-- The three digits of a byte. -/
theorem bcdDigits_getD_toNat (b : Byte) : ((bcdDigits b).getD 0 0).toNat = b.toNat / 100 ∧
    ((bcdDigits b).getD 1 0).toNat = b.toNat / 10 % 10 ∧ ((bcdDigits b).getD 2 0).toNat = b.toNat % 10 := by
  have := b.isLt
  simp only [bcdDigits, List.getD_cons_zero, List.getD_cons_succ, BitVec.toNat_ofNat]
  omega

/-- Settles O18: the store of the list of digits, or the report of the block. -/
theorem bcdStoresThreeDigits : Obligations.BcdStoresThreeDigits := by
  refine ⟨ldB_encodedAs, fun x s => ⟨fun h => ?_, fun h =>
    State.finish_error (State.writeBlock_error (bs := bcdDigits s.v[x]) ?_ (List.cons_ne_nil _ _))⟩⟩
  · have hblock : ∀ k < 3, (s.pokeAll s.i.toNat (bcdDigits s.v[x])).peek (s.i.toNat + k) = (bcdDigits s.v[x]).getD k 0 :=
      fun k hk => peek_pokeAll_block s s.i.toNat hk
    obtain ⟨hundreds, tens, ones⟩ := bcdDigits_getD_toNat s.v[x]
    refine ⟨_, exec_ldB_ok x h, ?_, ?_, ?_, fun a ha => ?_, ?_, by rw [State.pokeAll_eq]; rfl⟩
    · rw [← hundreds, ← hblock 0 (by decide)]; rfl
    · rw [← tens, ← hblock 1 (by decide)]; rfl
    · rw [← ones, ← hblock 2 (by decide)]; rfl
    · exact peek_pokeAll_outside s (bs := bcdDigits s.v[x]) fun hb => ha ⟨hb.1, Nat.le_of_lt_succ hb.2⟩
    · rw [State.advance_toNat, pokeAll_pc]
  · simp only [bcdDigits, List.length_cons, List.length_nil]
    omega

/-- Settles O19: the store of the first registers, or the report of the block. -/
theorem storeBlockCopiesTheRegisters : Obligations.StoreBlockCopiesTheRegisters := by
  refine ⟨ldMemVx_encodedAs, fun x s => ?_⟩
  have hlen := s.firstRegs_length x
  refine ⟨fun h => ⟨_, exec_ldMemVx_ok x h, fun k hk => ?_, fun a ha => ?_, indexPast_toNat h, ?_,
    by rw [State.pokeAll_eq]; rfl⟩,
    fun h => State.finish_error (State.writeBlock_error (by omega) (List.ne_nil_of_length_pos (by omega)))⟩
  · have hkx : k.val ≤ x.val := hk
    rw [← s.firstRegs_getD x k hk]
    exact peek_pokeAll_block s s.i.toNat (by omega)
  · exact peek_pokeAll_outside s (bs := s.firstRegs x) (by omega)
  · rw [State.advance_toNat, State.setI_pc, pokeAll_pc]

/-- Settles O20: the registers are loaded from the block read, or the block is reported. -/
theorem loadBlockFillsTheRegisters : Obligations.LoadBlockFillsTheRegisters := by
  refine ⟨ldVxMem_encodedAs, fun x s => ⟨fun h => ⟨_, exec_ldVxMem_ok x h, fun k => ?_, indexPast_toNat h,
    State.advance_toNat _, rfl⟩, fun h => State.finish_error (State.readBlock_error (by omega) (Nat.succ_ne_zero _))⟩⟩
  refine (loadRegs_get 0 _ s.v k).trans ?_
  rw [List.length_map, List.length_range]
  by_cases hk : k ≤ x
  · have hkx : k.val < x.val + 1 := Nat.lt_succ_of_le hk
    rw [if_pos hk, if_pos (by omega), List.getD_eq_getElem _ _ (by simpa using hkx)]
    simp
  · have hkx : ¬ k.val ≤ x.val := hk
    rw [if_neg hk, if_neg (by omega)]

end Sys2Proof.Claims

/-! Display (44_display.md): the sprite. -/

namespace Sys2Proof.Claims

open Sys2Proof.Machine

theorem spriteBytes_length (s : State) (n : BitVec 4) : (s.spriteBytes n).length = n.toNat := by
  rw [State.spriteBytes, List.length_map, List.length_range]

theorem spriteBytes_getD (s : State) (n : BitVec 4) {k : Nat} (h : k < n.toNat) :
    (s.spriteBytes n).getD k 0 = s.peek (s.i.toNat + k) := by
  rw [List.getD_eq_getElem _ _ (by rwa [spriteBytes_length])]
  simp [State.spriteBytes]

/-- Bit `k` of a byte as a quotient and remainder. -/
theorem getLsbD_iff_div_mod (b : Byte) (k : Nat) : b.getLsbD k = true ↔ b.toNat / 2 ^ k % 2 = 1 := by
  rw [BitVec.getLsbD, Nat.testBit_eq_decide_div_mod_eq, decide_eq_true_eq]

/-- The pixels the statement selects are the cells the sprite loops visit. -/
theorem selects_iff_mem_spriteCells (s : State) (x y : Reg) (n : BitVec 4) (px : Fin 64) (py : Fin 32) :
    Selects s x y n px py ↔ (px, py) ∈ spriteCells (s.v[x]).toNat (s.v[y]).toNat 0 (s.spriteBytes n) := by
  rw [mem_spriteCells, spriteBytes_length]
  constructor
  · rintro ⟨row, col, hrow, hcol, hbit, hx, hy⟩
    refine ⟨row, hrow, col, hcol, ?_, Prod.ext (Fin.ext hx) (Fin.ext ?_)⟩
    · rwa [spriteBytes_getD s n hrow, getLsbD_iff_div_mod]
    · rw [hy, wrapRow_val, Nat.zero_add]
  · rintro ⟨row, hrow, col, hcol, hbit, hp⟩
    obtain ⟨rfl, rfl⟩ := Prod.mk.inj hp
    refine ⟨row, col, hrow, hcol, ?_, wrapColumn_val _ _, by rw [wrapRow_val, Nat.zero_add]⟩
    rwa [spriteBytes_getD s n hrow, getLsbD_iff_div_mod] at hbit

theorem spriteBytes_length_le (s : State) (n : BitVec 4) : (s.spriteBytes n).length ≤ 32 := by
  have := n.isLt
  rw [spriteBytes_length]
  omega

/-- The framebuffer after a sprite: the selected pixels are toggled. -/
theorem drawSprite_pixel (s : State) (x y : Reg) (n : BitVec 4) (px : Fin 64) (py : Fin 32) :
    (Selects s x y n px py → (s.drawSprite x y (s.spriteBytes n)).1[py][px] = !s.fb[py][px]) ∧
    (¬ Selects s x y n px py → (s.drawSprite x y (s.spriteBytes n)).1[py][px] = s.fb[py][px]) := by
  have h := drawRows_pixel (s.v[x]).toNat (s.v[y]).toNat (s.spriteBytes n) s.fb (spriteBytes_length_le s n) (px, py)
  rw [selects_iff_mem_spriteCells]
  exact ⟨fun hm => h.trans (if_pos hm), fun hm => h.trans (if_neg hm)⟩

/-- The collision: a selected pixel was on. -/
theorem drawSprite_collision (s : State) (x y : Reg) (n : BitVec 4) :
    (s.drawSprite x y (s.spriteBytes n)).2 = true ↔ ∃ px py, Selects s x y n px py ∧ s.fb[py][px] = true := by
  simp only [selects_iff_mem_spriteCells]
  refine (drawRows_collision _ _ (s.spriteBytes n) s.fb (spriteBytes_length_le s n)).trans ?_
  exact Prod.exists

theorem exec_drw_ok {s : State} {n : BitVec 4} (x y : Reg) (h : n.toNat = 0 ∨ s.i.toNat + n.toNat - 1 ≤ 0xFFF) :
    exec (.drw x y n) s = .next ((s.setDisplay (s.drawSprite x y (s.spriteBytes n)).1).setFlag
      (s.drawSprite x y (s.spriteBytes n)).2).advance :=
  State.finish_ok (State.readBlock_ok (by omega))

/-! ## The obligations -/

/-- Settles O22: the sprite loops toggle each selected pixel once, and VF is written last with the collision. -/
theorem drawTogglesTheSelectedPixels : Obligations.DrawTogglesTheSelectedPixels := by
  refine ⟨drw_encodedAs, fun x y n s h => ⟨_, exec_drw_ok x y h, fun px py => (drawSprite_pixel s x y n px py).1,
    fun px py => (drawSprite_pixel s x y n px py).2, fun hc => ?_, fun hc => ?_, fun r hr => ?_, rfl,
    State.advance_toNat _, rfl⟩⟩
  · rw [← drawSprite_collision] at hc
    rw [State.advance_v, State.setFlag_get, if_pos rfl, hc]; rfl
  · rw [← drawSprite_collision, Bool.not_eq_true] at hc
    rw [State.advance_v, State.setFlag_get, if_pos rfl, hc]; rfl
  · rw [State.advance_v, State.setFlag_get, if_neg hr]; rfl

/-- Selection reads `I`, memory and the two coordinates alone. -/
theorem selects_congr {s t : State} {x y : Reg} {n : BitVec 4} (hi : t.i = s.i) (hpeek : ∀ a, t.peek a = s.peek a)
    (hx : t.v[x] = s.v[x]) (hy : t.v[y] = s.v[y]) (px : Fin 64) (py : Fin 32) :
    Selects t x y n px py ↔ Selects s x y n px py := by
  simp only [Selects, hi, hpeek, hx, hy]

/-- Settles O23: the second draw selects the same pixels, so every pixel is toggled twice or not at all. -/
theorem drawingTwiceRestoresTheFramebuffer : Obligations.DrawingTwiceRestoresTheFramebuffer := by
  intro x y n s t h hexec hx hy
  obtain ⟨t', ht', htog, hstay, -, -, -, -, -, hframe⟩ := drawTogglesTheSelectedPixels.2 x y n s h
  obtain rfl : t' = t := by injection ht'.symm.trans hexec
  have hi : t'.i = s.i := by rw [hframe]
  have hmem : t'.mem = s.mem := by rw [hframe]
  have hfont : t'.font = s.font := by rw [hframe]
  have hsel := selects_congr (n := n) hi (State.peek_congr hmem hfont) hx hy
  obtain ⟨u, hu, hutog, hustay, hon, hoff, -, -, -, -⟩ := drawTogglesTheSelectedPixels.2 x y n t' (by rwa [hi])
  simp only [hsel] at hutog hustay hon hoff
  have hiff : (∃ px py, Selects s x y n px py ∧ s.fb[py][px] = false) ↔
      ∃ px py, Selects s x y n px py ∧ t'.fb[py][px] = true := by
    refine exists₂_congr fun px py => and_congr_right fun hs => ?_
    rw [htog px py hs, Bool.not_eq_true']
  refine ⟨u, hu, Framebuffer.ext_pixel fun px py => ?_, fun h => hon (hiff.mp h), fun h => hoff fun hc => h (hiff.mpr hc)⟩
  show u.fb[py][px] = s.fb[py][px]
  by_cases hs : Selects s x y n px py
  · rw [hutog px py hs, htog px py hs, Bool.not_not]
  · rw [hustay px py hs, hstay px py hs]

/-- Settles O24: the block of sprite bytes is read first, and raises. -/
theorem drawOutOfRangeReports : Obligations.DrawOutOfRangeReports :=
  fun _ _ _ _ hn h => State.finish_error (State.readBlock_error (by omega) (by omega))

end Sys2Proof.Claims

/-! Keys and timer access (45_keys_timers.md). -/

namespace Sys2Proof.Claims

open Sys2Proof.Machine

/-! ## Execute phases -/

theorem exec_skp_ok {s : State} {x : Reg} {k : Key} (h : (s.v[x]).toNat = k.val) :
    exec (.skp x) s = .next (s.skipIf (decide (s.keys[k] = true))) := by
  have hk : s.keyAt x = .ok s.keys[k] := by
    rw [State.keyAt_ok (by omega)]
    simp only [h]
    rfl
  rw [Bool.decide_eq_true]
  exact State.finish_ok hk

theorem exec_sknp_ok {s : State} {x : Reg} {k : Key} (h : (s.v[x]).toNat = k.val) :
    exec (.sknp x) s = .next (s.skipIf (decide (¬ s.keys[k] = true))) := by
  have hk : s.keyAt x = .ok s.keys[k] := by
    rw [State.keyAt_ok (by omega)]
    simp only [h]
    rfl
  rw [decide_not, Bool.decide_eq_true]
  exact State.finish_ok hk

theorem exec_ldVxDt (x : Reg) (s : State) : exec (.ldVxDt x) s = .next (s.setV x s.dt).advance := rfl

theorem exec_ldDtVx (x : Reg) (s : State) : exec (.ldDtVx x) s = .next (s.setDt s.v[x]).advance := rfl

theorem exec_ldStVx (x : Reg) (s : State) : exec (.ldStVx x) s = .next (s.setSt s.v[x]).advance := rfl

theorem exec_ldVxK_none {s : State} (x : Reg) (h : selectKey s.pressedKeys = none) : exec (.ldVxK x) s = .next s := by
  rw [exec, execLdVxK, h]

theorem exec_ldVxK_some {s : State} (x : Reg) {k : Key} (h : selectKey s.pressedKeys = some k) :
    exec (.ldVxK x) s = .next (s.setV x (BitVec.ofNat 8 k.val)).advance := by
  rw [exec, execLdVxK, h]

/-! ## The obligations -/

/-- Settles O25: both skips sample the key VX names, on its being pressed and on the negation; above 15 there is none. -/
theorem keySkipsSampleTheLatch : Obligations.KeySkipsSampleTheLatch := by
  refine ⟨skp_encodedAs, sknp_encodedAs, fun x s => ⟨fun k hk => ?_, fun h =>
    ⟨State.finish_error (State.keyAt_error h), State.finish_error (State.keyAt_error h)⟩⟩⟩
  refine ⟨_, _, exec_skp_ok hk, exec_sknp_ok hk, State.skipIf_toNat s _, ?_, rfl, rfl⟩
  rw [← ite_not]
  exact State.skipIf_toNat s (¬ s.keys[k] = true)

/-- Settles O26: one register write of the timer. -/
theorem readDelayCopiesTheTimer : Obligations.ReadDelayCopiesTheTimer :=
  ⟨ldVxDt_encodedAs, fun x s => ⟨_, exec_ldVxDt x s, fun r => s.setV_get x r s.dt, (s.setV x s.dt).advance_toNat, rfl⟩⟩

/-- Settles O27: one write of a timer. -/
theorem setTimersCopyTheRegister : Obligations.SetTimersCopyTheRegister :=
  ⟨ldDtVx_encodedAs, ldStVx_encodedAs, fun x s =>
    ⟨⟨_, exec_ldDtVx x s, rfl, (s.setDt s.v[x]).advance_toNat, rfl⟩,
      ⟨_, exec_ldStVx x s, rfl, (s.setSt s.v[x]).advance_toNat, rfl⟩⟩⟩

theorem selectKey_pressedKeys_eq_none {s : State} : selectKey s.pressedKeys = none ↔ ∀ k : Key, s.keys[k] = false := by
  simp only [selectKey_eq_none, List.eq_nil_iff_forall_not_mem, State.mem_pressedKeys, Bool.not_eq_true]

/-- Settles O28: with no key pressed none is selected. -/
theorem keyWaitHoldsThePc : Obligations.KeyWaitHoldsThePc :=
  ⟨ldVxK_encodedAs, fun x _ h => exec_ldVxK_none x (selectKey_pressedKeys_eq_none.mpr h)⟩

/-- Settles O29: the key selected is a pressed one, whatever the free choice is. -/
theorem keyWaitStoresAPressedKey : Obligations.KeyWaitStoresAPressedKey := by
  rintro x s ⟨k₀, hk₀⟩
  obtain ⟨k, hk⟩ : ∃ k, selectKey s.pressedKeys = some k := by
    refine Option.ne_none_iff_exists'.mp fun hnone => ?_
    rw [selectKey_pressedKeys_eq_none.mp hnone k₀] at hk₀
    cases hk₀
  have hpressed := State.mem_pressedKeys.mp (selectKey_mem hk)
  refine ⟨_, k, exec_ldVxK_some x hk, hpressed, fun r => ?_, fun k' honly => (honly k).mp hpressed,
    (s.setV x (BitVec.ofNat 8 k.val)).advance_toNat, rfl⟩
  have hk8 : (BitVec.ofNat 8 k.val).toNat = k.val := by
    rw [BitVec.toNat_ofNat]; omega
  rw [State.advance_v, State.setV_get]
  split
  · exact hk8
  · rfl

end Sys2Proof.Claims

/-! What an execute phase leaves alone, and which condition it raises when (40_step_cycle.md R84, 60_exceptions.md R158). -/

namespace Sys2Proof.Claims

open Sys2Proof.Machine

/-- The frame of each instruction's own effect: the next state is the old one but for these fields (10_state.md R36; `draws`
is the model's own, log entry 2). -/
def OwnFrame (i : Instr) (s t : State) : Prop :=
  match i with
  | .jp _ | .jpV0 _ | .seImm _ _ | .sneImm _ _ | .seReg _ _ | .sneReg _ _ | .skp _ | .sknp _ => t = { s with pc := t.pc }
  | .call _ => t = { s with stack := t.stack, sp := t.sp, pc := t.pc }
  | .ret => t = { s with sp := t.sp, pc := t.pc }
  | .cls => t = { s with fb := t.fb, dirty := t.dirty, pc := t.pc }
  | .drw _ _ _ => t = { s with v := t.v, fb := t.fb, dirty := t.dirty, pc := t.pc }
  | .ldI _ | .ldF _ => t = { s with i := t.i, pc := t.pc }
  | .addI _ | .ldVxMem _ => t = { s with v := t.v, i := t.i, pc := t.pc }
  | .ldB _ => t = { s with mem := t.mem, pc := t.pc }
  | .ldMemVx _ => t = { s with mem := t.mem, i := t.i, pc := t.pc }
  | .ldDtVx _ => t = { s with dt := t.dt, pc := t.pc }
  | .ldStVx _ => t = { s with st := t.st, pc := t.pc }
  | .rnd _ _ => t = { s with v := t.v, draws := t.draws, pc := t.pc }
  | _ => t = { s with v := t.v, pc := t.pc }

theorem completes_frame {i : Instr} {s t : State} (h : Completes i s t) : OwnFrame i s t := by
  cases i
  case ldB x | ldMemVx x => obtain ⟨-, rfl⟩ := h; rw [State.pokeAll_eq]; rfl
  case drw x y n | ldVxMem x | ret | call nnn | skp x | sknp x => obtain ⟨-, rfl⟩ := h; rfl
  case ldVxK x => obtain ⟨-, rfl⟩ | ⟨k, -, rfl⟩ := h <;> rfl
  all_goals cases h; rfl

/-- What a frame equation says of a field that it does not name. -/
theorem field_of_frame {α : Type} (p : State → α) {s t u : State} (h : t = u) (hu : p u = p s) : p t = p s :=
  (congrArg p h).trans hu

theorem completes_report {i : Instr} {s t : State} (h : Completes i s t) : t.report = s.report := by
  have hf := completes_frame h
  cases i <;> exact field_of_frame State.report hf rfl

theorem completes_reported {i : Instr} {s t : State} (h : Completes i s t) : t.reported = s.reported := by
  have hf := completes_frame h
  cases i <;> exact field_of_frame State.reported hf rfl

/-! ## Conditions -/

/-- The condition that keeps an instruction from completing in a state, with what it reports (60_exceptions.md R152 to
R155). -/
def Blocked : Instr → State → Report → Prop
  | .call _, s, c => s.sp.val = 16 ∧ c = .stackOverflow s.pc
  | .ret, s, c => s.sp.val = 0 ∧ c = .stackUnderflow s.pc
  | .drw _ _ n, s, c => (0 < n.toNat ∧ 0xFFF < s.i.toNat + n.toNat - 1) ∧ c = .memoryBounds (max s.i.toNat 0x1000)
  | .ldB _, s, c => 0xFFF < s.i.toNat + 2 ∧ c = .memoryBounds (max s.i.toNat 0x1000)
  | .ldMemVx x, s, c => 0xFFF < s.i.toNat + x.val ∧ c = .memoryBounds (max s.i.toNat 0x1000)
  | .ldVxMem x, s, c => 0xFFF < s.i.toNat + x.val ∧ c = .memoryBounds (max s.i.toNat 0x1000)
  | .skp x, s, c => 15 < (s.v[x]).toNat ∧ c = .keyIndexRange s.pc s.v[x]
  | .sknp x, s, c => 15 < (s.v[x]).toNat ∧ c = .keyIndexRange s.pc s.v[x]
  | _, _, _ => False

/-- Being blocked reads the registers, `I`, `pc` and `SP` alone. -/
theorem blocked_congr {i : Instr} {s t : State} {c : Report} (hv : t.v = s.v) (hi : t.i = s.i) (hpc : t.pc = s.pc)
    (hsp : t.sp = s.sp) (h : Blocked i s c) : Blocked i t c := by
  cases i
  case call | ret => rw [Blocked, hsp, hpc]; exact h
  case drw | ldB | ldMemVx | ldVxMem => rw [Blocked, hi]; exact h
  case skp | sknp => rw [Blocked, hv, hpc]; exact h
  all_goals exact h.elim

theorem blocked_startStep {i : Instr} {s : State} {c : Report} : Blocked i s.startStep c ↔ Blocked i s c :=
  ⟨blocked_congr rfl rfl rfl rfl, blocked_congr rfl rfl rfl rfl⟩

/-- A blocked instruction raises. -/
theorem exec_of_blocked {i : Instr} {s : State} {c : Report} (h : Blocked i s c) : exec i s = .next (s.raise c) := by
  cases i
  case call nnn => obtain ⟨hb, rfl⟩ := h; exact (callPushesItsAddress.2 nnn s).2 hb
  case ret => obtain ⟨hb, rfl⟩ := h; exact (returnResumesPastTheCall.2 s).2 hb
  case drw x y n => obtain ⟨⟨hn, hb⟩, rfl⟩ := h; exact drawOutOfRangeReports x y n s hn hb
  case ldB x => obtain ⟨hb, rfl⟩ := h; exact (bcdStoresThreeDigits.2 x s).2 hb
  case ldMemVx x => obtain ⟨hb, rfl⟩ := h; exact (storeBlockCopiesTheRegisters.2 x s).2 hb
  case ldVxMem x => obtain ⟨hb, rfl⟩ := h; exact (loadBlockFillsTheRegisters.2 x s).2 hb
  case skp x => obtain ⟨hb, rfl⟩ := h; exact ((keySkipsSampleTheLatch.2.2 x s).2 hb).1
  case sknp x => obtain ⟨hb, rfl⟩ := h; exact ((keySkipsSampleTheLatch.2.2 x s).2 hb).2
  all_goals exact h.elim

theorem exec_next_unique {i : Instr} {s t u : State} (ht : exec i s = .next t) (hu : exec i s = .next u) : t = u :=
  Host.Outcome.next.inj (ht.symm.trans hu)

/-- An execute phase completes, or its instruction is blocked and raises. -/
theorem completes_or_blocked {i : Instr} {s t : State} (h : exec i s = .next t) :
    Completes i s t ∨ ∃ c, Blocked i s c ∧ t = s.raise c := by
  by_cases hb : ∃ c, Blocked i s c
  · obtain ⟨c, hc⟩ := hb
    exact .inr ⟨c, hc, exec_next_unique h (exec_of_blocked hc)⟩
  refine .inl ?_
  cases i
  case call nnn =>
    have hok : s.sp.val < 16 := by by_contra hbad; exact hb ⟨_, by omega, rfl⟩
    exact ⟨hok, exec_next_unique h (exec_call_ok nnn hok)⟩
  case ret =>
    have hok : 0 < s.sp.val := by by_contra hbad; exact hb ⟨_, by omega, rfl⟩
    exact ⟨hok, exec_next_unique h (State.finish_ok (State.popStack_ok hok))⟩
  case drw x y n =>
    have hok : n.toNat = 0 ∨ s.i.toNat + n.toNat ≤ 4096 := by by_contra hbad; exact hb ⟨_, by omega, rfl⟩
    exact ⟨hok, exec_next_unique h (exec_drw_ok x y (by omega))⟩
  case ldB x =>
    have hok : s.i.toNat + 2 ≤ 0xFFF := by by_contra hbad; exact hb ⟨_, by omega, rfl⟩
    exact ⟨by omega, exec_next_unique h (exec_ldB_ok x hok)⟩
  case ldMemVx x =>
    have hok : s.i.toNat + x.val ≤ 0xFFF := by by_contra hbad; exact hb ⟨_, by omega, rfl⟩
    exact ⟨by omega, exec_next_unique h (exec_ldMemVx_ok x hok)⟩
  case ldVxMem x =>
    have hok : s.i.toNat + x.val ≤ 0xFFF := by by_contra hbad; exact hb ⟨_, by omega, rfl⟩
    exact ⟨by omega, exec_next_unique h (exec_ldVxMem_ok x hok)⟩
  case skp x =>
    have hok : (s.v[x]).toNat < 16 := by by_contra hbad; exact hb ⟨_, by omega, rfl⟩
    exact ⟨hok, exec_next_unique h (State.finish_ok (State.keyAt_ok hok))⟩
  case sknp x =>
    have hok : (s.v[x]).toNat < 16 := by by_contra hbad; exact hb ⟨_, by omega, rfl⟩
    exact ⟨hok, exec_next_unique h (State.finish_ok (State.keyAt_ok hok))⟩
  case cls => exact exec_next_unique h (exec_cls s)
  case ldVxK x =>
    cases hk : selectKey s.pressedKeys with
    | none => exact .inl ⟨selectKey_eq_none.mp hk, exec_next_unique h (exec_ldVxK_none x hk)⟩
    | some k => exact .inr ⟨k, hk, exec_next_unique h (exec_ldVxK_some x hk)⟩
  all_goals exact h

/-- An execute phase that answers a report, from no report, was blocked by it. -/
theorem blocked_of_report {i : Instr} {s t : State} {c : Report} (hs : s.report = none) (h : exec i s = .next t)
    (ht : t.report = some c) : Blocked i s c := by
  obtain hc | ⟨c', hb, rfl⟩ := completes_or_blocked h
  · rw [completes_report hc, hs] at ht
    cases ht
  · cases ht
    exact hb

theorem mayRaise_of_blocked {i : Instr} {s : State} {c : Report} (h : Blocked i s c) : MayRaise i c := by
  cases i
  case call | ret | drw | ldB | ldMemVx | ldVxMem | skp | sknp => obtain ⟨-, rfl⟩ := h; trivial
  all_goals exact h.elim

/-- Settles O38: a report means that the instruction was blocked, and a blocked instruction raises and does nothing else. -/
theorem conditionsBelongToTheirInstructions : Obligations.ConditionsBelongToTheirInstructions := by
  intro i s t c hs h ht
  have hb := blocked_of_report hs h ht
  exact ⟨mayRaise_of_blocked hb, exec_next_unique h (exec_of_blocked hb)⟩

end Sys2Proof.Claims

/-! The step (40_step_cycle.md): what is fetched, and steps that report. -/

namespace Sys2Proof.Claims

open Sys2Proof.Machine

/-! ## Fetch and decode -/

/-- The word at `pc`. -/
def wordAtPc (s : State) : Word := wordOfBytes (s.peek s.pc.toNat) (s.peek (s.pc.toNat + 1))

theorem fetchInstr_of_decodes {s : State} {i : Instr} (hpc : s.pc.toNat ≤ 0xFFE) (h : decodeWord (wordAtPc s) = .ok i) :
    s.fetchInstr = .ok i := by
  rw [wordAtPc] at h
  rw [State.fetchInstr, State.fetch_ok hpc]
  simp only [h]

theorem fetchInstr_of_unknown {s : State} (hpc : s.pc.toNat ≤ 0xFFE) (h : recognised (wordAtPc s) = false) :
    s.fetchInstr = .error (.unknownOpcode s.pc (wordAtPc s)) := by
  have hw := decodeWord_of_not_recognised h
  rw [wordAtPc] at hw ⊢
  rw [State.fetchInstr, State.fetch_ok hpc]
  simp only [hw]

theorem fetchInstr_of_outside {s : State} (hpc : 0xFFE < s.pc.toNat) :
    s.fetchInstr = .error (.memoryBounds (max s.pc.toNat 0x1000)) := by
  rw [State.fetchInstr, State.fetch_error hpc]

/-- A pair of bytes decodes to an instruction with nothing left over exactly as their word does. -/
theorem decodeWord_of_decode {hi lo : Byte} {i : Instr} (h : decode [hi, lo] = .ok (i, [])) :
    decodeWord (wordOfBytes hi lo) = .ok i := by
  rw [decode] at h
  split at h
  · next j hj => cases h; exact hj
  · cases h

/-- Settles O30: the two bytes at `pc` are what the step fetches and decodes. -/
theorem stepRunsTheDecodedInstruction : Obligations.StepRunsTheDecodedInstruction :=
  fun _ _ hpc h => step_of_fetch (fetchInstr_of_decodes hpc (decodeWord_of_decode h))

/-- Settles O31: the byte at `pc` is the high byte of the word fetched. -/
theorem fetchIsBigEndian : Obligations.FetchIsBigEndian :=
  fun s hpc => ⟨wordAtPc s, State.fetch_ok hpc, wordOfBytes_toNat _ _⟩

/-- Settles O32: the fetch reports the first of its two addresses that lies above 0xFFF. -/
theorem fetchOutOfRangeReports : Obligations.FetchOutOfRangeReports := by
  intro s hpc
  have haddr : (if 0xFFF < s.pc.toNat then s.pc.toNat else 0x1000) = max s.pc.toNat 0x1000 := by split <;> omega
  rw [haddr]
  exact step_of_error (fetchInstr_of_outside hpc)

/-- Settles O33: a word of no row is rejected by the decoder, and the step reports it. -/
theorem unknownWordIsReported : Obligations.UnknownWordIsReported := by
  intro s w hpc hw hrec
  obtain rfl : w = wordAtPc s := BitVec.eq_of_toNat_eq (hw.trans (wordOfBytes_toNat _ _).symm)
  exact step_of_error (fetchInstr_of_unknown hpc hrec)

/-! ## Steps that report -/

/-- What makes a step report: nothing can be fetched, or what is fetched is blocked. -/
def Stuck (s : State) (c : Report) : Prop :=
  s.fetchInstr = .error c ∨ ∃ i, s.fetchInstr = .ok i ∧ Blocked i s c

/-- A stuck machine ticks and reports. -/
theorem step_of_stuck {s : State} {c : Report} (h : Stuck s c) : step s = .next (Reports s.tick c) := by
  obtain he | ⟨i, hi, hb⟩ := h
  · exact step_of_error he
  · rw [step_of_fetch hi, exec_of_blocked (blocked_startStep.mpr hb)]
    rfl

theorem stuck_of_report {s t : State} {c : Report} (h : step s = .next t) (ht : t.report = some c) : Stuck s c := by
  obtain ⟨i, u, hi, hu, rfl⟩ | ⟨c', he, rfl⟩ := step_cases h
  · have hb := blocked_of_report (State.startStep_report s) hu ht
    exact .inr ⟨i, hi, blocked_startStep.mp hb⟩
  · cases ht
    exact .inl he

/-- What makes a step report reads no timer and no report, so it is there at the next step too. -/
theorem stuck_after {s : State} {c : Report} (h : Stuck s c) : Stuck (Reports s.tick c) c := by
  obtain he | ⟨i, hi, hb⟩ := h
  · exact .inl he
  · exact .inr ⟨i, hi, blocked_congr (s := s) rfl rfl rfl rfl hb⟩

/-- Settles O34: a step that reports was stuck. -/
theorem reportingStepChangesOnlyTheTick : Obligations.ReportingStepChangesOnlyTheTick :=
  fun _ _ _ h ht => Host.Outcome.next.inj (h.symm.trans (step_of_stuck (stuck_of_report h ht)))

/-- A run takes its first step first. -/
theorem core_run_succ {M : Host.Core} {s t : M.State} (n : Nat) (h : M.step s = .next t) :
    M.run (n + 1) s = M.run n t := by
  rw [Host.Core.run, h]

theorem run_succ {s t : State} (n : Nat) (h : step s = .next t) :
    Host.Core.run Sys2Proof.core (n + 1) s = Host.Core.run Sys2Proof.core n t :=
  core_run_succ (M := Sys2Proof.core) n h

/-- A stuck machine whose last step reported the same condition goes on so. -/
theorem run_of_stuck {c : Report} (n : Nat) (t : State) (h : Stuck t c) (hc : t.report = some c)
    (hl : t.reported = true) : ∃ u, Host.Core.run Sys2Proof.core n t = .next u ∧ u.report = some c ∧
      u = { t with dt := u.dt, st := u.st, soundActive := u.soundActive } ∧
      u.dt.toNat = t.dt.toNat - n ∧ u.st.toNat = t.st.toNat - n := by
  induction n generalizing t with
  | zero => exact ⟨t, rfl, hc, rfl, rfl, rfl⟩
  | succ n ih =>
    obtain ⟨u, hrun, hu, hframe, hdt, hst⟩ := ih (Reports t.tick c) (stuck_after h) rfl rfl
    refine ⟨u, (run_succ n (step_of_stuck h)).trans hrun, hu, ?_, ?_, ?_⟩
    · rw [hframe, Reports, ← hc, ← hl]; rfl
    · rw [hdt, show (Reports t.tick c).dt = countDown t.dt from rfl, countDown_toNat]; omega
    · rw [hst, show (Reports t.tick c).st = countDown t.st from rfl, countDown_toNat]; omega

/-- Settles O35: a step that reports was stuck, and the tick does not free it. -/
theorem reportRecursForEver : Obligations.ReportRecursForEver := by
  intro s t c n h ht
  have hstuck := stuck_of_report h ht
  obtain rfl := reportingStepChangesOnlyTheTick s t c h ht
  exact run_of_stuck n _ (stuck_after hstuck) rfl rfl

/-- Settles O36: a fetched instruction's execute phase answers a next state, and without one the step reports. -/
theorem everyStepCompletes : Obligations.EveryStepCompletes := by
  intro s
  cases hf : s.fetchInstr with
  | error c => exact ⟨_, step_of_error hf⟩
  | ok i =>
    obtain ⟨u, hu⟩ := exec_answers i s.startStep
    exact ⟨u.tick, by rw [step_of_fetch hf, hu, tickAfter_next]⟩

/-! ## The latch -/

/-- A step reports nothing and leaves the latch, or reports and sets it. -/
theorem step_latch {s t : State} (h : step s = .next t) :
    (t.report = none ∧ t.reported = s.reported) ∨ (t.report ≠ none ∧ t.reported = true) := by
  obtain ⟨i, u, -, hu, rfl⟩ | ⟨c, -, rfl⟩ := step_cases h
  · obtain hc | ⟨c, rfl⟩ := exec_cases hu
    · exact .inl ⟨completes_report hc, (completes_reported hc).trans (State.startStep_reported s)⟩
    · exact .inr ⟨Option.some_ne_none c, rfl⟩
  · exact .inr ⟨Option.some_ne_none c, rfl⟩

/-- The latch stays set. -/
theorem run_keeps_reported {n : Nat} {s t : State} (hs : s.reported = true)
    (h : Host.Core.run Sys2Proof.core n s = .next t) : t.reported = true := by
  induction n generalizing s with
  | zero => cases h; exact hs
  | succ n ih =>
    obtain ⟨u, hu⟩ := everyStepCompletes s
    rw [run_succ n hu] at h
    obtain ⟨-, hrep⟩ | ⟨-, hrep⟩ := step_latch hu
    · exact ih (hrep.trans hs) h
    · exact ih hrep h

/-- Settles O37: the first step reports, and sets the latch for good, or it reports nothing and the rest of the run tells. -/
theorem latchTellsReportFreeRuns : Obligations.LatchTellsReportFreeRuns := by
  intro n
  induction n with
  | zero => exact fun s hs => ⟨fun _ => ⟨s, rfl, hs⟩, fun _ => trivial⟩
  | succ n ih =>
    intro s hs
    obtain ⟨u, hu⟩ := everyStepCompletes s
    have hfree : ReportFree (n + 1) s ↔ u.report = none ∧ ReportFree n u := by
      simp only [ReportFree, hu, Host.Outcome.next.injEq, exists_eq_left']
    rw [hfree, run_succ n hu]
    obtain ⟨hnone, hrep⟩ | ⟨hsome, hrep⟩ := step_latch hu
    · rw [← ih u (hrep.trans hs)]
      exact and_iff_right hnone
    · refine ⟨fun h => absurd h.1 hsome, fun ⟨t, hrun, ht⟩ => ?_⟩
      rw [run_keeps_reported hrep hrun] at ht
      cases ht

end Sys2Proof.Claims

/-! The access matrix (10_state.md R36), column by column: the frame of each instruction's effect rules out the others. -/

namespace Sys2Proof.Claims

open Sys2Proof.Machine

/-! ## Registers -/

theorem setV_changes {s : State} {x r : Reg} {b : Byte} (h : (s.setV x b).v[r] ≠ s.v[r]) : r = x := by
  by_contra hr
  exact h ((s.setV_get x r b).trans (if_neg hr))

theorem setV_setFlag_changes {s : State} {x r : Reg} {b : Byte} {c : Bool}
    (h : ((s.setV x b).setFlag c).v[r] ≠ s.v[r]) : r = x ∨ r = 15 := by
  by_cases hr : r = 15
  · exact .inr hr
  · rw [State.setFlag_get, if_neg hr] at h
    exact .inl (setV_changes h)

theorem setFirstRegs_changes {s : State} {x r : Reg} {bs : List Byte} (hlen : bs.length = x.val + 1)
    (h : (s.setFirstRegs bs).v[r] ≠ s.v[r]) : r ≤ x := by
  by_contra hr
  have hrx : x.val < r.val := not_le.mp hr
  exact h ((loadRegs_get 0 bs s.v r).trans (if_neg (by omega)))

theorem completes_changes_v {i : Instr} {s t : State} (h : Completes i s t) {r : Reg} (hne : t.v[r] ≠ s.v[r]) :
    MayWriteV i r := by
  have hf := completes_frame h
  cases i
  case ldImm | addImm | ldReg | or | and | xor | ldVxDt => cases h; exact setV_changes hne
  case rnd x nn => cases h; exact setV_changes (s := s.countDraw) hne
  case addReg | sub | shr | subn | shl => cases h; exact setV_setFlag_changes hne
  case ldVxK x =>
    obtain ⟨-, rfl⟩ | ⟨k, -, rfl⟩ := h
    · exact absurd rfl hne
    · exact setV_changes hne
  case addI x => cases h; exact setV_changes (s := s.setI (s.indexPlus x)) hne
  case drw x y n => obtain ⟨-, rfl⟩ := h; exact setV_changes (s := s.setDisplay _) hne
  case ldVxMem x =>
    obtain ⟨-, rfl⟩ := h
    exact setFirstRegs_changes (by rw [List.length_map, List.length_range]) hne
  all_goals exact absurd (field_of_frame (fun u : State => u.v[r]) hf rfl) hne

/-! ## Memory -/

theorem completes_changes_mem {i : Instr} {s t : State} (h : Completes i s t) {a : Nat} (hne : t.peek a ≠ s.peek a) :
    MayStoreAt s i a := by
  have hf := completes_frame h
  cases i
  case ldB x =>
    obtain ⟨-, rfl⟩ := h
    by_contra ha
    exact hne (peek_pokeAll_outside s (bs := bcdDigits s.v[x]) fun hb => ha ⟨hb.1, Nat.le_of_lt_succ hb.2⟩)
  case ldMemVx x =>
    obtain ⟨-, rfl⟩ := h
    by_contra ha
    have hlen := s.firstRegs_length x
    exact hne (peek_pokeAll_outside s (bs := s.firstRegs x) fun hb => ha ⟨hb.1, by omega⟩)
  all_goals exact absurd (field_of_frame (fun u : State => u.peek a) hf rfl) hne

/-! ## The other columns -/

section

variable {i : Instr} {s t : State} (h : Completes i s t)

include h

theorem completes_changes_i (hne : t.i ≠ s.i) : MayWriteIndex i := by
  have hf := completes_frame h
  cases i
  case ldI | addI | ldF | ldMemVx | ldVxMem => trivial
  all_goals exact absurd (field_of_frame State.i hf rfl) hne

theorem completes_changes_stack (hne : t.stack ≠ s.stack) : ∃ nnn, i = .call nnn := by
  have hf := completes_frame h
  cases i
  case call nnn => exact ⟨nnn, rfl⟩
  all_goals exact absurd (field_of_frame State.stack hf rfl) hne

theorem completes_changes_sp (hne : t.sp ≠ s.sp) : i = .ret ∨ ∃ nnn, i = .call nnn := by
  have hf := completes_frame h
  cases i
  case ret => exact .inl rfl
  case call nnn => exact .inr ⟨nnn, rfl⟩
  all_goals exact absurd (field_of_frame State.sp hf rfl) hne

theorem completes_changes_dt (hne : t.dt ≠ s.dt) : ∃ x, i = .ldDtVx x := by
  have hf := completes_frame h
  cases i
  case ldDtVx x => exact ⟨x, rfl⟩
  all_goals exact absurd (field_of_frame State.dt hf rfl) hne

theorem completes_changes_st (hne : t.st ≠ s.st) : ∃ x, i = .ldStVx x := by
  have hf := completes_frame h
  cases i
  case ldStVx x => exact ⟨x, rfl⟩
  all_goals exact absurd (field_of_frame State.st hf rfl) hne

theorem completes_changes_fb (hne : t.fb ≠ s.fb) : MayDraw i := by
  have hf := completes_frame h
  cases i
  case cls | drw => trivial
  all_goals exact absurd (field_of_frame State.fb hf rfl) hne

theorem completes_changes_dirty (hne : t.dirty ≠ s.dirty) : MayDraw i := by
  have hf := completes_frame h
  cases i
  case cls | drw => trivial
  all_goals exact absurd (field_of_frame State.dirty hf rfl) hne

theorem completes_keys : t.keys = s.keys := by
  have hf := completes_frame h
  cases i <;> exact field_of_frame State.keys hf rfl

theorem completes_soundActive : t.soundActive = s.soundActive := by
  have hf := completes_frame h
  cases i <;> exact field_of_frame State.soundActive hf rfl

theorem completes_font : t.font = s.font := by
  have hf := completes_frame h
  cases i <;> exact field_of_frame State.font hf rfl

end

/-- Settles O43: the columns, for an instruction's own effect; a raise changes none of them. -/
theorem accessMatrixBoundsEveryWrite : Obligations.AccessMatrixBoundsEveryWrite := by
  intro i s t h
  obtain hc | ⟨c, rfl⟩ := exec_cases h
  · exact ⟨fun _ => completes_changes_v hc, completes_changes_i hc, fun _ => completes_changes_mem hc,
      completes_changes_stack hc, completes_changes_sp hc, completes_changes_dt hc, completes_changes_st hc,
      completes_changes_fb hc, completes_changes_dirty hc, completes_keys hc, completes_soundActive hc,
      completes_font hc⟩
  · exact ⟨fun _ => absurd rfl, absurd rfl, fun _ => absurd rfl, absurd rfl, absurd rfl, absurd rfl, absurd rfl,
      absurd rfl, absurd rfl, rfl, rfl, rfl⟩

end Sys2Proof.Claims

/-! The timers over whole steps (60_exceptions.md R160 to R163). -/

namespace Sys2Proof.Claims

open Sys2Proof.Machine

theorem byte_eq_one_iff (b : Byte) : b = 1 ↔ b.toNat = 1 := by
  rw [BitVec.toNat_eq]; rfl

/-- Settles O39: the counters as numbers, and the signal as the tick from 1 to 0. -/
theorem tickCountsDownToZero : Obligations.TickCountsDownToZero :=
  fun s => ⟨countDown_toNat s.dt, countDown_toNat s.st, s.tick_sound_iff.trans (byte_eq_one_iff s.st), rfl⟩

theorem exec_dt {i : Instr} {s t : State} (h : exec i s = .next t) (hi : ∀ x, i ≠ .ldDtVx x) : t.dt = s.dt := by
  obtain ⟨-, -, -, -, -, hdt, -⟩ := accessMatrixBoundsEveryWrite i s t h
  by_contra hne
  obtain ⟨x, hx⟩ := hdt hne
  exact hi x hx

theorem exec_st {i : Instr} {s t : State} (h : exec i s = .next t) (hi : ∀ x, i ≠ .ldStVx x) : t.st = s.st := by
  obtain ⟨-, -, -, -, -, -, hst, -⟩ := accessMatrixBoundsEveryWrite i s t h
  by_contra hne
  obtain ⟨x, hx⟩ := hst hne
  exact hi x hx

/-- A step that does not execute FX15 counts the delay timer down, whatever else it does. -/
theorem step_dt {s t : State} (h : step s = .next t) (hf : ∀ x, s.fetchInstr ≠ .ok (.ldDtVx x)) :
    t.dt = countDown s.dt := by
  obtain ⟨i, u, hi, hu, rfl⟩ | ⟨c, -, rfl⟩ := step_cases h
  · have hdt := exec_dt hu fun x hx => hf x (hx ▸ hi)
    rw [State.tick_dt, hdt, State.startStep_dt]
  · rfl

/-- Settles O41: one tick a step. -/
theorem delayTimerCountsSteps : Obligations.DelayTimerCountsSteps := by
  intro n
  induction n with
  | zero => exact fun s _ => ⟨s, rfl, rfl⟩
  | succ n ih =>
    rintro s ⟨hf, hrest⟩
    obtain ⟨u, hu⟩ := everyStepCompletes s
    obtain ⟨t, hrun, ht⟩ := ih u (hrest u hu)
    refine ⟨t, (run_succ n hu).trans hrun, ?_⟩
    rw [ht, step_dt hu hf, countDown_toNat]
    omega

/-- The sound timer and its signal after a tick, from the sound timer before it. -/
theorem tick_sound {u : State} {b : Byte} (hst : u.st = b) :
    u.tick.st.toNat = b.toNat - 1 ∧ (u.tick.isSoundActive = true ↔ b.toNat = 1) := by
  obtain ⟨-, hcount, hsound, -⟩ := tickCountsDownToZero u
  rw [← hst]
  exact ⟨hcount, hsound⟩

/-- Settles O42: FX18 writes VX before the tick of its own step, and no other instruction writes `ST`. -/
theorem soundSignalMarksTheEndOfTheCountdown : Obligations.SoundSignalMarksTheEndOfTheCountdown := by
  intro s t h
  obtain ⟨i, u, hi, hu, rfl⟩ | ⟨c, he, rfl⟩ := step_cases h
  · refine ⟨fun x hx => tick_sound ?_, fun hf => tick_sound ?_⟩
    · obtain rfl : i = .ldStVx x := Except.ok.inj (hi.symm.trans hx)
      rw [← exec_next_unique (exec_ldStVx x s.startStep) hu]
      rfl
    · exact (exec_st hu fun x hx => hf x (hx ▸ hi)).trans s.startStep_st
  · refine ⟨fun x hx => ?_, fun _ => tick_sound rfl⟩
    rw [he] at hx
    cases hx

end Sys2Proof.Claims

/-! What no instruction reads (10_state.md, `SOUND_ACTIVE`, `DIRTY` and `ST`; log entry 4). -/

namespace Sys2Proof.Claims

open Sys2Proof.Machine

/-- A state with other outputs: the sound signal, the dirty flag, the sound timer and the latch. -/
def withOutputs (s : State) (sound dirty : Bool) (st : Byte) (latch : Bool) : State :=
  { s with soundActive := sound, dirty := dirty, st := st, reported := latch }

/-- An execute phase passes the outputs on, each by itself: the signal and the latch as they were, the dirty flag through
`D` and the sound timer through `S`. -/
def PassesOutputs (i : Instr) (s t : State) : Prop :=
  ∃ (D : Bool → Bool) (S : Byte → Byte), ∀ sound dirty st latch,
    exec i (withOutputs s sound dirty st latch) = .next (withOutputs t sound (D dirty) (S st) latch)

theorem pokeAll_withOutputs (s : State) (sound dirty : Bool) (st : Byte) (latch : Bool) (a : Nat) (bs : List Byte) :
    (withOutputs s sound dirty st latch).pokeAll a bs = withOutputs (s.pokeAll a bs) sound dirty st latch := by
  induction bs generalizing s a with
  | nil => rfl
  | cons b bs ih => exact ih (s.poke a b) (a + 1)

/-- An instruction that completes reads none of the outputs. -/
theorem passesOutputs_of_completes {i : Instr} {s t : State} (h : Completes i s t) : PassesOutputs i s t := by
  cases i
  case cls => cases h; exact ⟨fun _ => true, id, fun _ _ _ _ => rfl⟩
  case ldStVx x => cases h; exact ⟨id, fun _ => s.v[x], fun _ _ _ _ => rfl⟩
  case drw x y n =>
    obtain ⟨hok, rfl⟩ := h
    have hrange : n.toNat = 0 ∨ s.i.toNat + n.toNat - 1 ≤ 0xFFF := by omega
    exact ⟨fun _ => true, id, fun a d b l => exec_drw_ok (s := withOutputs s a d b l) x y hrange⟩
  case ldB x =>
    obtain ⟨hok, rfl⟩ := h
    have hrange : s.i.toNat + 2 ≤ 0xFFF := by omega
    refine ⟨id, id, fun a d b l => (exec_ldB_ok (s := withOutputs s a d b l) x hrange).trans ?_⟩
    rw [pokeAll_withOutputs]
    rfl
  case ldMemVx x =>
    obtain ⟨hok, rfl⟩ := h
    have hrange : s.i.toNat + x.val ≤ 0xFFF := by omega
    refine ⟨id, id, fun a d b l => (exec_ldMemVx_ok (s := withOutputs s a d b l) x hrange).trans ?_⟩
    rw [pokeAll_withOutputs]
    rfl
  case ldVxMem x =>
    obtain ⟨hok, rfl⟩ := h
    have hrange : s.i.toNat + x.val ≤ 0xFFF := by omega
    exact ⟨id, id, fun a d b l => exec_ldVxMem_ok (s := withOutputs s a d b l) x hrange⟩
  case call nnn =>
    obtain ⟨hok, rfl⟩ := h
    exact ⟨id, id, fun a d b l => exec_call_ok (s := withOutputs s a d b l) nnn hok⟩
  case ret =>
    obtain ⟨hok, rfl⟩ := h
    exact ⟨id, id, fun a d b l => State.finish_ok (State.popStack_ok (s := withOutputs s a d b l) hok)⟩
  case skp x | sknp x =>
    obtain ⟨hok, rfl⟩ := h
    exact ⟨id, id, fun a d b l => State.finish_ok (State.keyAt_ok (s := withOutputs s a d b l) hok)⟩
  case ldVxK x =>
    obtain ⟨hk, rfl⟩ | ⟨k, hk, rfl⟩ := h
    · exact ⟨id, id, fun a d b l => exec_ldVxK_none (s := withOutputs t a d b l) x (selectKey_eq_none.mpr hk)⟩
    · exact ⟨id, id, fun a d b l => exec_ldVxK_some (s := withOutputs s a d b l) x hk⟩
  all_goals cases h; exact ⟨id, id, fun _ _ _ _ => rfl⟩

/-- A step passes the outputs on as its instruction does, or reports whatever they are. -/
theorem step_withOutputs (s : State) :
    (∃ (u : State) (D : Bool → Bool) (S : Byte → Byte), ∀ sound dirty st latch,
      step (withOutputs s sound dirty st latch) = .next (withOutputs u sound (D dirty) (S st) latch).tick) ∨
    (∃ c, ∀ sound dirty st latch, step (withOutputs s sound dirty st latch) =
      .next (Reports (withOutputs s sound dirty st latch).tick c)) := by
  cases hf : s.fetchInstr with
  | error c => exact .inr ⟨c, fun _ _ _ _ => step_of_error hf⟩
  | ok i =>
    obtain ⟨t, ht⟩ := exec_answers i s.startStep
    obtain hc | ⟨c, hb, -⟩ := completes_or_blocked ht
    · obtain ⟨D, S, hu⟩ := passesOutputs_of_completes hc
      refine .inl ⟨t, D, S, fun sound dirty st latch => ?_⟩
      refine (step_of_fetch (s := withOutputs s sound dirty st latch) hf).trans ?_
      exact congrArg tickAfter (hu sound dirty st latch)
    · refine .inr ⟨c, fun sound dirty st latch => step_of_stuck (.inr ⟨i, hf, ?_⟩)⟩
      exact blocked_congr (s := s) rfl rfl rfl rfl (blocked_startStep.mp hb)

/-- Settles O44: each output is changed alone in `withOutputs`, and the tick writes the signal anew. -/
theorem outputsAreNeverRead : Obligations.OutputsAreNeverRead := by
  refine ⟨fun s b => ?_, fun s b => ?_, fun s b => ?_, fun s r b => ?_⟩
  · obtain ⟨u, D, S, h⟩ | ⟨c, h⟩ := step_withOutputs s
    · exact (h b s.dirty s.st s.reported).trans (h s.soundActive s.dirty s.st s.reported).symm
    · exact (h b s.dirty s.st s.reported).trans (h s.soundActive s.dirty s.st s.reported).symm
  · obtain ⟨u, D, S, h⟩ | ⟨c, h⟩ := step_withOutputs s
    · exact ⟨_, D b, h s.soundActive s.dirty s.st s.reported, h s.soundActive b s.st s.reported⟩
    · exact ⟨_, b, h s.soundActive s.dirty s.st s.reported, h s.soundActive b s.st s.reported⟩
  · obtain ⟨u, D, S, h⟩ | ⟨c, h⟩ := step_withOutputs s
    · exact ⟨_, _, _, h s.soundActive s.dirty s.st s.reported, h s.soundActive s.dirty b s.reported⟩
    · exact ⟨_, _, _, h s.soundActive s.dirty s.st s.reported, h s.soundActive s.dirty b s.reported⟩
  · obtain ⟨u, D, S, h⟩ | ⟨c, h⟩ := step_withOutputs s
    · exact ⟨_, b, h s.soundActive s.dirty s.st s.reported, h s.soundActive s.dirty s.st b⟩
    · exact ⟨_, true, h s.soundActive s.dirty s.st s.reported, h s.soundActive s.dirty s.st b⟩

end Sys2Proof.Claims

/-! The invariant of `State.Inv`, kept by every step and every transaction. -/

namespace Sys2Proof.Claims

open Sys2Proof.Machine

/-! ## Memory, clause by clause of an instruction's own effect -/

theorem completes_keeps_memory {i : Instr} {s t : State} (h : Completes i s t) (hm : Memory.wf s.font s.mem = true) :
    Memory.wf t.font t.mem = true := by
  rw [completes_font h]
  have hf := completes_frame h
  cases i
  case ldB x => obtain ⟨hr, rfl⟩ := h; exact State.pokeAll_wf hm hr
  case ldMemVx x => obtain ⟨hr, rfl⟩ := h; exact State.pokeAll_wf hm (by rw [State.firstRegs_length]; exact hr)
  all_goals rw [field_of_frame State.mem hf rfl]; exact hm

/-- The only address ever pushed is that of a fetched 2NNN. -/
theorem completes_keeps_stack {i : Instr} {s t : State} (h : Completes i s t) (hpc : s.pc.toNat ≤ 0xFFE)
    (hs : ∀ k : Fin 16, s.stack[k].toNat ≤ 0xFFE) (k : Fin 16) : t.stack[k].toNat ≤ 0xFFE := by
  by_cases hst : t.stack = s.stack
  · rw [hst]
    exact hs k
  · obtain ⟨nnn, rfl⟩ := completes_changes_stack h hst
    obtain ⟨hsp, rfl⟩ := h
    obtain ⟨u, hu, hslots, -⟩ := (callPushesItsAddress.2 nnn s).1 hsp
    rw [exec_next_unique (exec_call_ok nnn hsp) hu, hslots k]
    split
    · exact hpc
    · exact hs k

theorem advance_pc_le {s : State} (h : s.pc.toNat ≤ 0xFFE) : s.advance.pc.toNat ≤ 0x10FE := by
  rw [State.advance_toNat]
  omega

theorem skipIf_pc_le {s : State} (h : s.pc.toNat ≤ 0xFFE) (c : Bool) : (s.skipIf c).pc.toNat ≤ 0x10FE := by
  rw [← Bool.decide_eq_true (b := c), State.skipIf_toNat]
  split <;> omega

/-- Where an instruction's own effect may leave `pc` (10_state.md R24): the highest target is that of BNNN. -/
theorem completes_pc_le {i : Instr} {s t : State} (h : Completes i s t) (hpc : s.pc.toNat ≤ 0xFFE)
    (hs : ∀ k : Fin 16, s.stack[k].toNat ≤ 0xFFE) : t.pc.toNat ≤ 0x10FE := by
  cases i
  case jp nnn =>
    cases h
    have := nnn.isLt
    exact (zextAddr_toNat nnn).trans_le (by omega)
  case call nnn =>
    obtain ⟨-, rfl⟩ := h
    have := nnn.isLt
    exact (zextAddr_toNat nnn).trans_le (by omega)
  case jpV0 nnn =>
    cases h
    have := nnn.isLt
    have := (s.v[(0 : Reg)]).isLt
    exact (indexedTarget_toNat s nnn).trans_le (by omega)
  case ret =>
    obtain ⟨hsp, rfl⟩ := h
    have hk := hs ⟨s.sp.val - 1, by omega⟩
    refine (BitVec.toNat_add _ _).trans_le ?_
    exact (Nat.mod_le _ _).trans (Nat.add_le_add_right hk 2 |>.trans (by decide))
  case seImm | sneImm | seReg | sneReg => cases h; exact skipIf_pc_le hpc _
  case skp | sknp => obtain ⟨-, rfl⟩ := h; exact skipIf_pc_le hpc _
  case ldVxK x =>
    obtain ⟨-, rfl⟩ | ⟨k, -, rfl⟩ := h
    · omega
    · exact advance_pc_le hpc
  case ldB | ldMemVx => obtain ⟨-, rfl⟩ := h; exact advance_pc_le (by simpa using hpc)
  case drw | ldVxMem => obtain ⟨-, rfl⟩ := h; exact advance_pc_le hpc
  all_goals cases h; exact advance_pc_le hpc

/-! ## Steps -/

/-- A tick establishes the clause of the sound signal and touches no other. -/
theorem inv_tick {s : State} (hm : Memory.wf s.font s.mem = true) (hs : ∀ k : Fin 16, s.stack[k].toNat ≤ 0xFFE)
    (hpc : s.pc.toNat ≤ 0x10FE) (hl : s.report ≠ none → s.reported = true) : s.tick.Inv where
  memory := hm
  stack := hs
  pc := hpc
  sound := fun h => by rw [State.tick_st, s.tick_sound_iff.mp h]; rfl
  latch := hl

/-- Settles O45: a fetched instruction stands at 0xFFE or below, from where its effect keeps each clause; a raise changes none
but the latch's; and the tick establishes the clause of the sound signal. -/
theorem stepKeepsTheInvariant : Obligations.StepKeepsTheInvariant := by
  rintro s t ⟨hm, hs, hpc, -, -⟩ h
  obtain ⟨i, u, hi, hu, rfl⟩ | ⟨c, -, rfl⟩ := step_cases h
  · obtain hc | ⟨c, rfl⟩ := exec_cases hu
    · have hfetch := pc_of_fetch hi
      refine inv_tick (completes_keeps_memory hc hm) (completes_keeps_stack hc hfetch hs) (completes_pc_le hc hfetch hs) ?_
      exact fun hne => absurd (completes_report hc) hne
    · exact inv_tick hm hs hpc fun _ => rfl
  · exact inv_tick hm hs hpc fun _ => rfl

/-! ## Reset and the other transactions -/

/-- The reset state, with whatever glyph bytes and draws, meets the invariant: memory lists nothing and every slot is 0. -/
theorem inv_resetAll (s : State) : s.resetAll.Inv where
  memory := rfl
  stack := fun k => by simp [State.resetAll, State.reset]
  pc := show (0x200 : Word).toNat ≤ 0x10FE by decide
  sound := fun h => Bool.noConfusion h
  latch := fun h => absurd rfl h

/-- Settles O46: the reset state is the reset of itself. -/
theorem resetMeetsTheInvariant : Obligations.ResetMeetsTheInvariant :=
  inv_resetAll State.reset

/-- A program that fits is stored from 0x200 on (70_reset_and_hazards.md R183). -/
theorem load_of_le_romMax {s : State} {rom : List Byte} (h : rom.length ≤ Config.romMax) :
    s.load rom = (s.pokeAll Config.progBase rom, none) :=
  if_pos h

theorem load_keeps_memory {s : State} (rom : List Byte) (h : Memory.wf s.font s.mem = true) :
    Memory.wf s.font (s.load rom).1.mem = true := by
  by_cases hlen : rom.length ≤ Config.romMax
  · rw [load_of_le_romMax hlen]
    exact State.pokeAll_wf h (by show 0x200 + rom.length ≤ 4096; have : rom.length ≤ 3584 := hlen; omega)
  · rw [load_of_romMax_lt (Nat.lt_of_not_le hlen)]
    exact h

/-- Settles O47: transaction by transaction; the step is `stepKeepsTheInvariant`. -/
theorem transactionsKeepTheInvariant : Obligations.TransactionsKeepTheInvariant := by
  intro tr s u a hinv h
  cases tr with
  | step => exact stepKeepsTheInvariant s u hinv (perform_step_eq_next h)
  | reset => cases h; exact inv_resetAll s
  | load rom =>
    cases h
    rw [load_state_eq]
    exact { hinv with memory := load_keeps_memory rom hinv.memory }
  | setKey index pressed =>
    cases h
    rw [setKey_state_eq]
    exact { hinv with }
  | clearDirty => cases h; exact { hinv with }
  | isSoundActive | readFramebuffer | readDirty => cases h; exact hinv

end Sys2Proof.Claims

/-! An instruction stored at `pc` (20_memory.md, instruction-fetch coherence). -/

namespace Sys2Proof.Claims

open Sys2Proof.Machine

theorem decodeTableWord_encode (i : Instr) : decodeTableWord 16 (encode i).toNat = some i := by
  rw [decodeTableWord, tableWord_toNat]
  have h := (decodeInvertsEncode i).2 []
  rw [List.append_nil, encodeBytes] at h
  rw [h]

/-- The bytes of an instruction stored at `pc` are the word there. -/
theorem wordAtPc_of_stored {s t : State} {i : Instr} (hpc : t.pc = s.pc)
    (hpeek : ∀ a, t.peek a = (s.pokeAll s.pc.toNat (encodeBytes i)).peek a) : wordAtPc t = encode i := by
  have hbytes : ∀ k < 2, t.peek (s.pc.toNat + k) = (encodeBytes i).getD k 0 :=
    fun k hk => (hpeek _).trans (peek_pokeAll_block s s.pc.toNat hk)
  have hhi := hbytes 0 (by decide)
  have hlo := hbytes 1 (by decide)
  rw [Nat.add_zero] at hhi
  rw [wordAtPc, hpc, hhi, hlo]
  exact wordOfBytes_hi_lo (encode i)

/-- A step from a state with the bytes of an instruction stored at `pc` executes it. -/
theorem step_of_stored {s : State} {i : Instr} (hpc : s.pc.toNat ≤ 0xFFE) :
    step (s.pokeAll s.pc.toNat (encodeBytes i)) =
      tickAfter (exec i (s.pokeAll s.pc.toNat (encodeBytes i)).startStep) := by
  have hpc' := pokeAll_pc s s.pc.toNat (encodeBytes i)
  refine step_of_fetch (fetchInstr_of_decodes (by rwa [hpc']) ?_)
  rw [wordAtPc_of_stored hpc' fun _ => rfl, decodeWord_encode]

/-- What `withFetchWord` stores, and where: at `pc`, or at 0x200 where no instruction can be fetched from `pc` (log entry 6). -/
theorem withFetchWord_eq_pokeAll (s : State) (i : Instr) : ∃ t : State, t.pc.toNat ≤ 0xFFE ∧
    s.withFetchWord 16 (encode i).toNat = t.pokeAll t.pc.toNat (encodeBytes i) := by
  rw [State.withFetchWord, tableWord_toNat]
  by_cases hpc : s.pc.toNat + 1 ≤ Config.maxAddr
  · exact ⟨s, Nat.le_of_succ_le_succ hpc, by simp only [if_pos hpc]; rfl⟩
  · exact ⟨s.setPc 0x200, show (0x200 : Word).toNat ≤ 0xFFE by decide, by simp only [if_neg hpc]; rfl⟩

/-- Settles O60: the two bytes stored at `pc` are the word fetched, which decodes to the instruction. -/
theorem storedInstructionIsExecutedNext : Obligations.StoredInstructionIsExecutedNext := by
  refine fun s i => ⟨decodeTableWord_encode i, ?_, fun t hpc ht => ?_⟩
  · obtain ⟨t, hpc, ht⟩ := withFetchWord_eq_pokeAll s i
    rw [ht]
    exact step_of_stored hpc
  · have hfits : s.pc.toNat + (encodeBytes i).length ≤ 4096 := by
      show s.pc.toNat + 2 ≤ 4096
      omega
    obtain rfl := Except.ok.inj ((State.writeBlock_ok hfits).symm.trans ht)
    exact step_of_stored hpc

end Sys2Proof.Claims

/-! The host's transactions that write the machine: reset, load and the key latch (70_reset_and_hazards.md, 60_exceptions.md
R166). -/

namespace Sys2Proof.Claims

open Sys2Proof.Machine

/-! ## Reset -/

/-- Memory after reset reads as when nothing is listed: the glyph bytes (20_memory.md R42), and 0 above them. -/
theorem resetAll_peek (s : State) (a : Nat) : s.resetAll.peek a = Memory.unlisted s.font a := rfl

theorem unlisted_glyph (font : Vector Byte 80) (a : Fin 80) : Memory.unlisted font a.val = font[a] := dif_pos a.isLt

theorem unlisted_above {a : Nat} (font : Vector Byte 80) (h : 80 ≤ a) : Memory.unlisted font a = 0 :=
  dif_neg (Nat.not_lt.mpr h)

/-- Every element of the machine but memory at its reset value (10_state.md R35). -/
theorem resetAll_elements (s : State) : (∀ r : Reg, s.resetAll.v[r] = 0) ∧ s.resetAll.i = 0 ∧ s.resetAll.pc = 0x200 ∧
    (∀ k : Fin 16, s.resetAll.stack[k] = 0) ∧ s.resetAll.sp = 0 ∧ s.resetAll.dt = 0 ∧ s.resetAll.st = 0 ∧
    s.resetAll.soundActive = false ∧ (∀ k : Key, s.resetAll.keys[k] = false) ∧
    (∀ (x : Fin 64) (y : Fin 32), s.resetAll.fb[y][x] = false) ∧ s.resetAll.dirty = true :=
  ⟨fun r => by simp [State.resetAll, State.reset], rfl, rfl, fun k => by simp [State.resetAll, State.reset], rfl, rfl, rfl,
    rfl, fun k => by simp [State.resetAll, State.reset], blank_pixel_off, rfl⟩

/-- Settles O48: reset keeps the glyph parameter and the count of draws, and nothing else of the earlier state. -/
theorem resetSetsEveryElement : Obligations.ResetSetsEveryElement := by
  refine ⟨rfl, fun s s' hfont => by rw [State.resetAll, State.resetAll, hfont], fun s => ⟨s.resetAll, rfl, fun a => ?_,
    fun a ha => ?_, resetAll_elements s⟩⟩
  · rw [resetAll_peek, unlisted_glyph]
  · rw [resetAll_peek, unlisted_above s.font ha]

/-! ## Load -/

/-- Settles O49: a program that fits is stored as one block. -/
theorem loadCopiesTheRom : Obligations.LoadCopiesTheRom := by
  intro s rom hlen
  refine ⟨s.pokeAll Config.progBase rom, by rw [perform, load_of_le_romMax hlen], fun j hj => ?_, fun a ha => ?_,
    s.pokeAll_eq Config.progBase rom⟩
  · exact peek_pokeAll_block s Config.progBase hj
  · exact peek_pokeAll_outside s ha

/-- Settles O51: what reset leaves, and the program stored on top of it above the glyphs. -/
theorem launchStateHoldsTheRom : Obligations.LaunchStateHoldsTheRom := by
  intro s rom hlen
  obtain ⟨t, hload, hrom, hout, hframe⟩ := loadCopiesTheRom s.resetAll rom hlen
  have hrun : performAll [.reset, .load rom] s = .next t := by
    show performAll [.load rom] s.resetAll = .next t
    rw [performAll, hload]
    rfl
  refine ⟨t, hrun, fun a => ?_, hrom, fun a ha hne => ?_, ?_⟩
  · rw [hout a.val (by omega), resetAll_peek, unlisted_glyph]
  · rw [hout a hne, resetAll_peek, unlisted_above s.font ha]
  · rw [hframe]
    exact resetAll_elements s

/-! ## The key latch -/

theorem setKey_of_mem {s : State} {index : Int} (pressed : Bool) (h : 0 ≤ index ∧ index < 16) :
    s.setKey index pressed = ({ s with keys := s.keys.set index.toNat pressed (by omega) }, none) :=
  dif_pos h

theorem setKey_of_not_mem {s : State} {index : Int} (pressed : Bool) (h : ¬ (0 ≤ index ∧ index < 16)) :
    s.setKey index pressed = (s, some (.keyIndexError index)) :=
  dif_neg h

/-- Settles O52: an index of a key writes that key, and any other is rejected. -/
theorem setKeyWritesOneKey : Obligations.SetKeyWritesOneKey := by
  refine fun s index pressed => ⟨fun h => ?_, fun h => ?_⟩
  · refine ⟨_, by rw [perform, setKey_of_mem pressed (by omega)], fun k => ?_, rfl⟩
    refine (Vector.getElem_set (by omega) k.isLt).trans ?_
    have hiff : index.toNat = k.val ↔ (k.val : Int) = index := by omega
    simp only [hiff]
    rfl
  · rw [perform, setKey_of_not_mem pressed (by omega)]

end Sys2Proof.Claims
